-- ==== Sys2Proof/Word.lean ====
section
/-! DEFINITION. The widths of the core: bytes, 16-bit words, register numbers and nibbles (00_scope.md R6). -/

namespace Sys2Proof

/-- A general register, a timer, a memory cell or a display cell: 8 bits (R6). -/
abbrev Byte := BitVec 8

/-- PC, MAR, I, a stack slot, an instruction word: 16 bits (R6). -/
abbrev Word := BitVec 16

/-- A general register number, V0 to VF (10_state.md R8). The register count is fixed at 16 (R5). -/
abbrev Reg := Fin 16

/-- A key number, 0x0 to 0xF (60_exceptions.md R132). -/
abbrev Key := Fin 16

/-- A 4-bit field of an instruction word that is a count or is ignored (30_encoding.md R52). -/
abbrev Nibble := Fin 16

/-- The 12-bit address field `nnn` of an instruction word (30_encoding.md R52). -/
abbrev Addr12 := BitVec 12

/-- VF, the register that is also the flag (10_state.md R9). -/
abbrev Reg.vf : Reg := 15

end Sys2Proof
end

