-- ==== Sys2Proof/Syntax.lean ====
section
/-! DEFINITION. The instructions: one constructor for each row of spec/opcode_table.json (30_encoding.md R55),
and one for the ignored words (R56, R57). -/

namespace Sys2Proof

/-- One instruction word, with every field it has (30_encoding.md R52, R55). A field that the instruction ignores is
kept, as `_x`, `_y` or `_n`, so that an instruction and its word determine each other (log 15). -/
inductive Instr where
  /-- `00E0` CLS, for every x (D5). -/
  | cls (_x : Nibble)
  /-- `00EE` RET, for every x (D5). -/
  | ret (_x : Nibble)
  /-- `1nnn` JP addr. -/
  | jp (nnn : Addr12)
  /-- `2nnn` CALL addr. -/
  | call (nnn : Addr12)
  /-- `3xkk` SE Vx, byte. -/
  | seByte (x : Reg) (kk : Byte)
  /-- `4xkk` SNE Vx, byte. -/
  | sneByte (x : Reg) (kk : Byte)
  /-- `5xyn` SE Vx, Vy, for every n (D6). -/
  | seReg (x y : Reg) (_n : Nibble)
  /-- `6xkk` LD Vx, byte. -/
  | ldByte (x : Reg) (kk : Byte)
  /-- `7xkk` ADD Vx, byte. -/
  | addByte (x : Reg) (kk : Byte)
  /-- `8xy0` LD Vx, Vy. -/
  | ldReg (x y : Reg)
  /-- `8xy1` OR Vx, Vy. -/
  | orReg (x y : Reg)
  /-- `8xy2` AND Vx, Vy. -/
  | andReg (x y : Reg)
  /-- `8xy3` XOR Vx, Vy. -/
  | xorReg (x y : Reg)
  /-- `8xy4` ADD Vx, Vy. -/
  | addReg (x y : Reg)
  /-- `8xy5` SUB Vx, Vy. -/
  | subReg (x y : Reg)
  /-- `8xy6` SHR Vx; y is encoded and ignored. -/
  | shr (x : Reg) (_y : Nibble)
  /-- `8xy7` SUBN Vx, Vy. -/
  | subnReg (x y : Reg)
  /-- `8xyE` SHL Vx; y is encoded and ignored. -/
  | shl (x : Reg) (_y : Nibble)
  /-- `9xyn` SNE Vx, Vy, for every n (D6). -/
  | sneReg (x y : Reg) (_n : Nibble)
  /-- `Annn` LD I, addr. -/
  | ldI (nnn : Addr12)
  /-- `Bnnn` JP V0, addr. -/
  | jpV0 (nnn : Addr12)
  /-- `Cxkk` RND Vx, byte. -/
  | rnd (x : Reg) (kk : Byte)
  /-- `Dxyn` DRW Vx, Vy, nibble. -/
  | drw (x y : Reg) (n : Nibble)
  /-- `Ex9E` SKP Vx. -/
  | skp (x : Reg)
  /-- `ExA1` SKNP Vx. -/
  | sknp (x : Reg)
  /-- `Fx07` LD Vx, DT. -/
  | ldVxDt (x : Reg)
  /-- `Fx0A` LD Vx, K. -/
  | ldVxK (x : Reg)
  /-- `Fx15` LD DT, Vx. -/
  | ldDtVx (x : Reg)
  /-- `Fx18` LD ST, Vx. -/
  | ldStVx (x : Reg)
  /-- `Fx1E` ADD I, Vx. -/
  | addI (x : Reg)
  /-- `Fx29` LD F, Vx. -/
  | ldF (x : Reg)
  /-- `Fx33` LD B, Vx. -/
  | ldB (x : Reg)
  /-- `Fx55` LD [I], Vx. -/
  | storeRegs (x : Reg)
  /-- `Fx65` LD Vx, [I]. -/
  | loadRegs (x : Reg)
  /-- A word that matches no row (30_encoding.md R56), the conventional `0nnn` SYS among them (R57). -/
  | ignored (w : Word)
  deriving DecidableEq, Repr

end Sys2Proof
end

