-- ==== Sys2Proof/Machine/Flags.lean ====
section
/-! DEFINITION. What is written to VF as a flag (10_state.md R9, R10). -/

namespace Sys2Proof.Machine

/-- A flag write stores 0x00 or 0x01 (10_state.md R10). -/
def flagByte (b : Bool) : Byte := if b then 0x01 else 0x00

/-- The carry out of an 8-bit add: the exact sum is above 255 (41_arithmetic.md R70, R75). -/
def addCarry (a b : Byte) : Bool := decide (a.toNat + b.toNat > 255)

/-- The subtract flag: the minuend is strictly greater (41_arithmetic.md R76, R77, 90_conflicts.md C2). -/
def subFlag (minuend subtrahend : Byte) : Bool := decide (minuend.toNat > subtrahend.toNat)

/-- The bit that a right shift moves out: bit 0 (41_arithmetic.md R78). -/
def shrBit (a : Byte) : Byte := a &&& 0x01

/-- The bit that a left shift moves out: bit 7 (41_arithmetic.md R79). -/
def shlBit (a : Byte) : Byte := (a >>> 7) &&& 0x01

end Sys2Proof.Machine
end

