-- ==== Sys2Proof/Config.lean ====
section
/-! DEFINITION. The configuration record of 00_scope.md R5, its legal values (D28), and the free values of the model. -/

namespace Sys2Proof

/-- Where `00EE` resumes (00_scope.md R5, 42_control_flow.md R86, D23). -/
inductive RetResume where
  /-- PC is the popped value: the source's literal text, the default. -/
  | callSite
  /-- PC is the popped value plus 2: the conventional return. -/
  | afterCall
  deriving DecidableEq, Repr

/-- The parameters of 00_scope.md R5 that a rule reads. They are fixed for the run and no instruction can read or
write them (10_state.md R26). `RegCount` is fixed at 16; the clock and timer frequencies are read by no rule (R150). -/
structure Config where
  /-- `MemSize`: bytes of memory. -/
  memSize : Nat
  /-- `StackDepth`: number of stack slots. -/
  stackDepth : Nat
  /-- `DispW`: display width in pixels. -/
  dispW : Nat
  /-- `DispH`: display height in pixels. -/
  dispH : Nat
  /-- `DrawWrap`: the draw-wrap mode. -/
  drawWrap : Bool
  /-- `DT0`: the value of DT at launch. -/
  dt0 : Byte
  /-- `ST0`: the value of ST at launch. -/
  st0 : Byte
  /-- `RetResume`: where `00EE` resumes. -/
  retResume : RetResume
  /-- `FontTable`: the 80 bytes written at 0x000-0x04F. -/
  fontTable : Vector Byte 80
  deriving DecidableEq, Repr

/-- The legal configurations (00_scope.md R5, D28). -/
abbrev Config.wf (c : Config) : Prop :=
  0x200 ≤ c.memSize ∧ c.memSize ≤ 0x10000 ∧ 1 ≤ c.stackDepth ∧ c.dispW % 8 = 0 ∧ 8 ≤ c.dispW ∧ 1 ≤ c.dispH

/-- The conventional glyphs of the digits 0 to F, 5 bytes each (10_state.md R30).
PRESUMED (log 6): the source gives the font's place and size, not its bytes. -/
def Config.defaultGlyphs : List (List Byte) :=
  [[0xF0, 0x90, 0x90, 0x90, 0xF0], [0x20, 0x60, 0x20, 0x20, 0x70], [0xF0, 0x10, 0xF0, 0x80, 0xF0]] ++
  [[0xF0, 0x10, 0xF0, 0x10, 0xF0], [0x90, 0x90, 0xF0, 0x10, 0x10], [0xF0, 0x80, 0xF0, 0x10, 0xF0]] ++
  [[0xF0, 0x80, 0xF0, 0x90, 0xF0], [0xF0, 0x10, 0x20, 0x40, 0x40], [0xF0, 0x90, 0xF0, 0x90, 0xF0]] ++
  [[0xF0, 0x90, 0xF0, 0x10, 0xF0], [0xF0, 0x90, 0xF0, 0x90, 0x90], [0xE0, 0x90, 0xE0, 0x90, 0xE0]] ++
  [[0xF0, 0x80, 0x80, 0x80, 0xF0], [0xE0, 0x90, 0x90, 0x90, 0xE0], [0xF0, 0x80, 0xF0, 0x80, 0xF0]] ++
  [[0xF0, 0x80, 0xF0, 0x80, 0x80]]

/-- The default of `FontTable` (10_state.md R30). -/
def Config.defaultFont : Vector Byte 80 := ⟨Config.defaultGlyphs.flatten.toArray, by decide⟩

/-- FREE VALUE (log 2): the draw-wrap mode of this hardware, an OPEN parameter with no default (D19). -/
opaque Config.hardwareDrawWrap : Bool

/-- FREE VALUE (log 7): the k-th byte drawn by `RandomByte()` (41_arithmetic.md R80, D27). -/
opaque Config.randomByte : Nat → Byte

/-- The configuration of this hardware: the column "value for this hardware" of 00_scope.md R5.
`drawWrap` is a free value (log 2); `dt0` and `st0` are DESIGN CHOICE 0x00 (log 4): the spec leaves them open. -/
def Config.hardware : Config where
  memSize := 4096
  stackDepth := 16
  dispW := 64
  dispH := 32
  drawWrap := Config.hardwareDrawWrap
  dt0 := 0x00
  st0 := 0x00
  retResume := .callSite
  fontTable := Config.defaultFont

/-- The bytes of one display row, `BPR = DispW / 8` (10_state.md R23). -/
def Config.bytesPerRow (c : Config) : Nat := c.dispW / 8

/-- The bytes of the display, `DispBytes = DispW * DispH / 8` (10_state.md R23). -/
def Config.dispBytes (c : Config) : Nat := c.dispW * c.dispH / 8

end Sys2Proof
end

