-- ==== Sys2Proof/Machine/Memory.lean ====
section
/-! DEFINITION. The byte memory as a list of cells in one canonical form (10_state.md R22, 20_memory.md R43). -/

namespace Sys2Proof.Machine

/-- What an unlisted address holds: the reset contents, `FontTable` at 0x000-0x04F and 0x00 elsewhere
(20_memory.md R43, 10_state.md R29, R31; log 14). -/
def Memory.unlisted (font : Vector Byte 80) (a : Nat) : Byte := font.toList.getD a 0x00

/-- The byte at address `a` (10_state.md R22); the range check is the accessors' (20_memory.md R32). -/
def Memory.read (font : Vector Byte 80) : List Host.Cell → Nat → Byte
  | [], a => Memory.unlisted font a
  | (k, b) :: m, a => if a = k then b else Memory.read font m a

/-- Memory with the byte at address `a` replaced by `v`. It keeps the canonical form: the addresses rise strictly, and a
byte equal to what an unlisted address holds is not listed. -/
def Memory.write (font : Vector Byte 80) : List Host.Cell → Nat → Byte → List Host.Cell
  | [], a, v => if v = Memory.unlisted font a then [] else [(a, v)]
  | (k, b) :: m, a, v =>
    if a < k then
      if v = Memory.unlisted font a then (k, b) :: m else (a, v) :: (k, b) :: m
    else if a = k then
      if v = Memory.unlisted font a then m else (a, v) :: m
    else (k, b) :: Memory.write font m a v

/-- The canonical form: addresses strictly rising and inside memory, no entry equal to the unlisted byte. -/
abbrev Memory.wf (c : Config) (m : List Host.Cell) : Prop :=
  m.Pairwise (fun p q => p.1 < q.1) ∧ ∀ p ∈ m, p.1 < c.memSize ∧ p.2 ≠ Memory.unlisted c.fontTable p.1

end Sys2Proof.Machine
end

