-- ==== Sys2Proof/Machine/Schedule.lean ====
section
/-! DEFINITION. The events of a run, and the orders in which they may come (60_exceptions.md R126, R138; 45_timers.md R111). -/

namespace Sys2Proof.Machine

/-- The atomic events of 60_exceptions.md R138: the step of the core and everything else that acts between two steps. The
host's `LoadProgram` is enabled at launch only and is part of `launch`; a diagnostic read changes nothing (R135); the oracle's
draw is inside the step. -/
inductive Event where
  /-- `Step()`: the core executes one instruction (40_step_and_dispatch.md R61). -/
  | coreStep
  /-- `TimerTick()` (45_timers.md R112). -/
  | timerTick
  /-- `SetKeyState(key, pressed)` (60_exceptions.md R134). -/
  | setKeyState (key : Key) (pressed : Bool)
  /-- `Pause()` (60_exceptions.md R136). -/
  | pause
  /-- `Resume()` (60_exceptions.md R136). -/
  | resume
  /-- The stop signal (60_exceptions.md R136). -/
  | stop
  deriving DecidableEq, Repr, Inhabited

end Sys2Proof.Machine

namespace Sys2Proof

/-- FREE VALUE (log 9): the k-th event of a run whose order of events nothing fixes (60_exceptions.md R126, D1, D25). -/
opaque Config.freeEvent : Nat → Machine.Event

end Sys2Proof

namespace Sys2Proof.Machine

/-- In which order the events come from now on: plain data for an order that never ends (log 9). -/
inductive Schedule where
  /-- Nothing fixes the order: the events are the free ones from the `n`-th on. -/
  | free (n : Nat)
  /-- The events of the block `first :: rest`, over and over. -/
  | loop (first : Event) (rest : List Event)
  /-- The event `first`, and then another schedule. -/
  | cons (first : Event) (later : Schedule)
  deriving DecidableEq, Repr

/-- The event that comes next. -/
def Schedule.head : Schedule → Event
  | free n => Config.freeEvent n
  | loop first _ => first
  | cons first _ => first

/-- The schedule after its next event. -/
def Schedule.tail : Schedule → Schedule
  | free n => .free (n + 1)
  | loop first rest => rest.foldr .cons (.loop first rest)
  | cons _ later => later

/-- All the events, in their order. -/
def Schedule.events (σ : Schedule) : Nat → Event
  | 0 => σ.head
  | k + 1 => σ.tail.events k

/-- The core alone: it steps, and nothing else ever happens. -/
def Schedule.coreAlone : Schedule := .loop .coreStep []

/-- The source's policy of one tick before every step (45_timers.md R111). -/
def Schedule.tickEachStep : Schedule := .loop .timerTick [.coreStep]

/-- The source's policy of one tick after every `n` steps, the first tick before the first step (45_timers.md R111). -/
def Schedule.tickEvery (n : Nat) : Schedule := .loop .timerTick (List.replicate n .coreStep)

end Sys2Proof.Machine
end

