-- ==== Sys2Proof/Machine/State.lean ====
section
/-! DEFINITION. The state of the machine (10_state.md), the reasons it stops, and reset. -/

namespace Sys2Proof.Machine

/-- The whole machine: every piece of state of 10_state.md, the configuration it was constructed with, and the model's
own `draws` and `schedule`. -/
structure State where
  /-- The configuration, fixed for the run (00_scope.md R5, 10_state.md R26). -/
  cfg : Config
  /-- V0 to VF (10_state.md R8). -/
  v : Vector Byte 16
  /-- The program counter (10_state.md R11). -/
  pc : Word
  /-- The memory-address register (10_state.md R13). -/
  mar : Word
  /-- The index register I (10_state.md R14). -/
  i : Word
  /-- The delay timer (10_state.md R15). -/
  dt : Byte
  /-- The sound timer (10_state.md R16). -/
  st : Byte
  /-- The stack slots S[0..StackDepth-1] (10_state.md R17). -/
  stack : List Word
  /-- The stack pointer: how many slots are occupied (10_state.md R18). -/
  sp : Nat
  /-- K: which keys are pressed (10_state.md R19). -/
  keys : Vector Bool 16
  /-- Kprev: the previous key snapshot (10_state.md R20). -/
  kprev : Vector Bool 16
  /-- The `watchingKeys` flag of the key wait (10_state.md R20). -/
  watching : Bool
  /-- The counter of executed steps (10_state.md R21). -/
  cycle : BitVec 64
  /-- Memory, in the canonical form `Memory.wf` (10_state.md R22). -/
  mem : List Host.Cell
  /-- The display bytes D[0..DispBytes-1] (10_state.md R23). -/
  display : List Byte
  /-- The pause flag (10_state.md R25). -/
  paused : Bool
  /-- The host has ended the run by the stop signal (60_exceptions.md R136, R138). -/
  stopped : Bool
  /-- The MODEL's own: how many random bytes have been drawn (log 7). -/
  draws : Nat
  /-- The MODEL's own: in which order the events come from now on (log 9). -/
  schedule : Schedule
  deriving DecidableEq, Repr

/-- Why an instruction raises `Unspecified`: the complete table of 60_exceptions.md R124. -/
inductive Unspecified where
  /-- `Fx29` with Vx >= 16 (43_index_and_memory.md R95, D13). -/
  | fontDigitOutOfRange
  /-- `Ex9E` with Vx >= 16 (46_keys.md R117, D14). -/
  | skpKeyOutOfRange
  /-- `ExA1` with Vx >= 16 (46_keys.md R118, D14). -/
  | sknpKeyOutOfRange
  /-- `Dxyn` in wrap mode with X >= 2 * DispW (44_display.md R108 case 1, D16). -/
  | drwColumnOffScreen
  /-- `Dxyn` with a row coordinate of 256 or more (44_display.md R108 case 2, D17). -/
  | drwRowBeyondByte
  deriving DecidableEq, Repr

/-- Why the machine stops with a fault. -/
inductive Fault where
  /-- `raise Unspecified` (60_exceptions.md R124): raised by `Fx29`, `Ex9E`, `ExA1` and `Dxyn` alone, where the spec gives
  no behaviour and says that a model stops. `at_` is the state at the stop: MAR and PC as the fetch left them, nothing
  written by the instruction, `cycle` not incremented. Safe: no claim about a run that reaches it can be proved (log 8). -/
  | unspecified (reason : Unspecified) (at_ : State)
  deriving DecidableEq, Repr

/-- Why a step has no meaning. -/
inductive Refusal where
  /-- An instruction whose arm in `exec` has no meaning yet. Raised by `exec` alone. Safe. -/
  | notModelled (mnemonic : String)
  /-- `LoadProgram` of more than MemSize - 0x200 bytes (70_reset_and_hazards.md R143, D22). Raised by `loadProgram`,
  and so by `launch`. Safe. -/
  | programTooLong
  /-- A launch with a configuration outside the legal ranges (00_scope.md R5, D28). Raised by `launch`. Safe. -/
  | illegalConfiguration
  deriving DecidableEq, Repr

/-- The outcome of a step. -/
abbrev Result := Host.Outcome State Fault Refusal

/-- The machine right after reset: the launch state of 10_state.md R31 for the configuration of this hardware, with no
program loaded. DT and ST are `DT0` and `ST0`, DESIGN CHOICE 0x00 (log 4); `paused` and `stopped` are DESIGN CHOICE false
(log 5); `draws` and `schedule` are the model's own (logs 7, 9): from reset on, any order of events may come. -/
def State.reset : State where
  cfg := Config.hardware
  v := Vector.replicate 16 0x00
  pc := 0x0200
  mar := 0x0000
  i := 0x0000
  dt := Config.hardware.dt0
  st := Config.hardware.st0
  stack := List.replicate Config.hardware.stackDepth 0x0000
  sp := 0
  keys := Vector.replicate 16 false
  kprev := Vector.replicate 16 false
  watching := false
  cycle := 0
  mem := []
  display := List.replicate Config.hardware.dispBytes 0x00
  paused := false
  stopped := false
  draws := 0
  schedule := .free 0

end Sys2Proof.Machine
end

