-- ==== Sys2Proof/Machine/Operands.lean ====
section
/-! DEFINITION. The operand forms: registers, immediates and addresses (30_encoding.md R53, 43_index_and_memory.md R99). -/

namespace Sys2Proof.Machine

/-- `V[r]` (10_state.md R8). No register is hard-wired. -/
def State.getV (s : State) (r : Reg) : Byte := s.v[r]

/-- `V[r] <- b` (10_state.md R8). VF is written like any other register (R9). -/
def State.setV (s : State) (r : Reg) (b : Byte) : State := { s with v := s.v.set r b }

/-- `zext_16(nnn)`, an address operand (30_encoding.md R53). -/
def addr16 (nnn : Addr12) : Word := nnn.setWidth 16

/-- `zext_16(b)` of a register's value (30_encoding.md R53). -/
def byte16 (b : Byte) : Word := b.setWidth 16

/-- The effective address of access `k`: `(I + k) mod 2^16` (20_memory.md R45, 43_index_and_memory.md R99). -/
def State.effAddr (s : State) (k : Nat) : Word := s.i + BitVec.ofNat 16 k

/-- The register with number `k`, for k in 0..15 (43_index_and_memory.md R97, R98). -/
def regOf (k : Nat) : Reg := Fin.ofNat 16 k

/-- The state of the key whose number is the value `b`, if there is such a key (46_keys.md R117, R118). -/
def State.keyAt (s : State) (b : Byte) : Option Bool := s.keys[b.toNat]?

end Sys2Proof.Machine
end

