-- ==== Sys2Proof/Machine/Ops.lean ====
section
/-! DEFINITION. The named operations over registers, memory, display, stack and program counter (20_memory.md), and the
one way an instruction stops (60_exceptions.md R124). The core takes no exception and returns from none (R122, R127, R128). -/

namespace Sys2Proof.Machine

/-! ### Single-field updates -/

/-- `PC <- a`. -/
def State.setPc (s : State) (a : Word) : State := { s with pc := a }

/-- `I <- a`. -/
def State.setI (s : State) (a : Word) : State := { s with i := a }

/-- `DT <- b`. -/
def State.setDt (s : State) (b : Byte) : State := { s with dt := b }

/-- `ST <- b`. -/
def State.setSt (s : State) (b : Byte) : State := { s with st := b }

/-- Replace the stack slots and the stack pointer. -/
def State.setStack (s : State) (slots : List Word) (n : Nat) : State := { s with stack := slots, sp := n }

/-- `Kprev <- ks; watching <- w`, the state of the key wait (46_keys.md R119). -/
def State.setWait (s : State) (ks : Vector Bool 16) (w : Bool) : State := { s with kprev := ks, watching := w }

/-- Replace memory. -/
def State.setMem (s : State) (m : List Host.Cell) : State := { s with mem := m }

/-- Replace the display. -/
def State.setDisplay (s : State) (d : List Byte) : State := { s with display := d }

/-- One more random byte has been drawn (log 7). -/
def State.nextDraw (s : State) : State := { s with draws := s.draws + 1 }

/-! ### Memory (20_memory.md R32-R35) -/

/-- The byte at `a`, with no range check. -/
def State.byteAt (s : State) (a : Nat) : Byte := Memory.read s.cfg.fontTable s.mem a

/-- `MemRead(addr, 1)` (R32). -/
def State.memRead8 (s : State) (a : Word) : Byte :=
  if a.toNat < s.cfg.memSize then s.byteAt a.toNat else 0xFF

/-- `MemRead(addr, 2)` (R33): big-endian; `addr + 1` is exact. -/
def State.memRead16 (s : State) (a : Word) : Word :=
  if a.toNat + 1 < s.cfg.memSize then joinBytes (s.byteAt a.toNat) (s.byteAt (a.toNat + 1)) else 0xFFFF

/-- `MemWrite(addr, 1, v)` (R34). -/
def State.memWrite8 (s : State) (a : Word) (b : Byte) : State :=
  s.setMem (if a.toNat < s.cfg.memSize then Memory.write s.cfg.fontTable s.mem a.toNat b else s.mem)

/-- `MemWrite(addr, 2, v)` (R35): both bytes or neither. No instruction uses it. -/
def State.memWrite16 (s : State) (a : Word) (w : Word) : State :=
  s.setMem (if a.toNat + 1 < s.cfg.memSize then
      Memory.write s.cfg.fontTable (Memory.write s.cfg.fontTable s.mem a.toNat (highByte w)) (a.toNat + 1) (lowByte w)
    else s.mem)

/-! ### Display (20_memory.md R36, R37) -/

/-- `DispRead(j)` over display bytes `d` (R36). -/
def dispRead (c : Config) (d : List Byte) (j : Nat) : Byte := if j < c.dispBytes then d.getD j 0xFF else 0xFF

/-- `DispWrite(j, b)` over display bytes `d` (R37). -/
def dispWrite (c : Config) (d : List Byte) (j : Nat) (b : Byte) : List Byte :=
  if j < c.dispBytes then d.set j b else d

/-- The display word read that R37 mentions: big-endian, sentinel 0xFFFF. No rule uses it. DEDUCED (log 17): both bytes
are checked, as for memory (D4). -/
def dispRead16 (c : Config) (d : List Byte) (j : Nat) : Word :=
  if j + 1 < c.dispBytes then joinBytes (dispRead c d j) (dispRead c d (j + 1)) else 0xFFFF

/-- The display word write that R37 mentions: big-endian, dropped unless both bytes are in range. No rule uses it.
DEDUCED (log 17). -/
def dispWrite16 (c : Config) (d : List Byte) (j : Nat) (w : Word) : List Byte :=
  if j + 1 < c.dispBytes then dispWrite c (dispWrite c d j (highByte w)) (j + 1) (lowByte w) else d

/-! ### Stack (20_memory.md R38, R39) -/

/-- `Push(w)`: dropped when the stack is full (R38). -/
def State.push (s : State) (w : Word) : State :=
  s.setStack (if s.sp < s.cfg.stackDepth then s.stack.set s.sp w else s.stack)
    (if s.sp < s.cfg.stackDepth then s.sp + 1 else s.sp)

/-- The value that `Pop()` returns: 0x00FF when the stack is empty (R39). -/
def State.popValue (s : State) : Word := if 0 < s.sp then s.stack.getD (s.sp - 1) 0x0000 else 0x00FF

/-- The state after `Pop()`: the slot read is unchanged, and SP stays at 0 when the stack is empty (R39). -/
def State.pop (s : State) : State := s.setStack s.stack (s.sp - 1)

/-! ### Program counter (42_control_flow.md R82) -/

/-- `Skip()` when `c` holds: PC goes up by 2 more, mod 2^16 (R82). -/
def State.skipIf (s : State) (c : Bool) : State := s.setPc (if c then s.pc + 2 else s.pc)

/-! ### The stop (60_exceptions.md R124) -/

/-- `raise Unspecified(reason)`: the model stops with the state as it is, before any write of the instruction. -/
def State.raise (s : State) (reason : Unspecified) : Result := .fault (.unspecified reason s)

end Sys2Proof.Machine
end

