-- ==== Sys2Proof/Machine/Arithmetic.lean ====
section
/-! DEFINITION. Register arithmetic and logic (41_arithmetic.md R69-R81). Each meaning runs after the fetch. The flag is
written after the result (D8), but for the shifts, which write it first (D9). -/

namespace Sys2Proof.Machine

/-- Write the result to Vx and then the flag to VF (D8). -/
def State.setResultFlag (s : State) (x : Reg) (result : Byte) (flag : Bool) : State :=
  (s.setV x result).setV .vf (flagByte flag)

/-- `6xkk` LD Vx, byte (R69). -/
def execLdByte (x : Reg) (kk : Byte) (s : State) : Result := .next (s.setV x kk)

/-- `7xkk` ADD Vx, byte (R70). This core writes VF (90_conflicts.md C11). -/
def execAddByte (x : Reg) (kk : Byte) (s : State) : Result :=
  .next (s.setResultFlag x (s.getV x + kk) (addCarry (s.getV x) kk))

/-- `8xy0` LD Vx, Vy (R71). -/
def execLdReg (x y : Reg) (s : State) : Result := .next (s.setV x (s.getV y))

/-- `8xy1` OR Vx, Vy (R72). -/
def execOrReg (x y : Reg) (s : State) : Result := .next (s.setV x (s.getV x ||| s.getV y))

/-- `8xy2` AND Vx, Vy (R73). -/
def execAndReg (x y : Reg) (s : State) : Result := .next (s.setV x (s.getV x &&& s.getV y))

/-- `8xy3` XOR Vx, Vy (R74). -/
def execXorReg (x y : Reg) (s : State) : Result := .next (s.setV x (s.getV x ^^^ s.getV y))

/-- `8xy4` ADD Vx, Vy (R75). -/
def execAddReg (x y : Reg) (s : State) : Result :=
  .next (s.setResultFlag x (s.getV x + s.getV y) (addCarry (s.getV x) (s.getV y)))

/-- `8xy5` SUB Vx, Vy (R76). -/
def execSubReg (x y : Reg) (s : State) : Result :=
  .next (s.setResultFlag x (s.getV x - s.getV y) (subFlag (s.getV x) (s.getV y)))

/-- `8xy7` SUBN Vx, Vy (R77). -/
def execSubnReg (x y : Reg) (s : State) : Result :=
  .next (s.setResultFlag x (s.getV y - s.getV x) (subFlag (s.getV y) (s.getV x)))

/-- `8xy6` SHR Vx (R78): VF first, then Vx is read again and shifted (D9). -/
def execShr (x : Reg) (_y : Nibble) (s : State) : Result :=
  let flagged := s.setV .vf (shrBit (s.getV x))
  .next (flagged.setV x (flagged.getV x >>> 1))

/-- `8xyE` SHL Vx (R79): VF first, then Vx is read again and shifted (D9). -/
def execShl (x : Reg) (_y : Nibble) (s : State) : Result :=
  let flagged := s.setV .vf (shlBit (s.getV x))
  .next (flagged.setV x (flagged.getV x <<< 1))

/-- `Cxkk` RND Vx, byte (R80). The random byte is a free value (log 7). -/
def execRnd (x : Reg) (kk : Byte) (s : State) : Result :=
  .next (s.nextDraw.setV x (Config.randomByte s.draws &&& kk))

end Sys2Proof.Machine
end

