-- ==== Sys2Proof/Machine/ControlFlow.lean ====
section
/-! DEFINITION. Control flow (42_control_flow.md R82-R91). PC already holds the fetch address plus 2 and MAR holds the
fetch address. -/

namespace Sys2Proof.Machine

/-- `1nnn` JP addr (R83). The target is not checked (D24). -/
def execJp (nnn : Addr12) (s : State) : Result := .next (s.setPc (addr16 nnn))

/-- `Bnnn` JP V0, addr (R84). -/
def execJpV0 (nnn : Addr12) (s : State) : Result := .next (s.setPc (addr16 nnn + byte16 (s.getV 0)))

/-- `2nnn` CALL addr (R85): no effect below 0x200; a dropped push does not stop the jump (D38). -/
def execCall (nnn : Addr12) (s : State) : Result :=
  .next (if (addr16 nnn).toNat < 0x200 then s else (s.push s.mar).setPc (addr16 nnn))

/-- `00EE` RET (R86): the resume point is the configuration's `RetResume` (D23). -/
def execRet (_x : Nibble) (s : State) : Result :=
  match s.cfg.retResume with
  | .callSite => .next (s.pop.setPc s.popValue)
  | .afterCall => .next (s.pop.setPc (s.popValue + 2))

/-- `3xkk` SE Vx, byte (R87). -/
def execSeByte (x : Reg) (kk : Byte) (s : State) : Result := .next (s.skipIf (s.getV x == kk))

/-- `4xkk` SNE Vx, byte (R88). -/
def execSneByte (x : Reg) (kk : Byte) (s : State) : Result := .next (s.skipIf (s.getV x != kk))

/-- `5xyn` SE Vx, Vy (R89). -/
def execSeReg (x y : Reg) (_n : Nibble) (s : State) : Result := .next (s.skipIf (s.getV x == s.getV y))

/-- `9xyn` SNE Vx, Vy (R90). -/
def execSneReg (x y : Reg) (_n : Nibble) (s : State) : Result := .next (s.skipIf (s.getV x != s.getV y))

/-- An ignored word writes nothing (40_step_and_dispatch.md R64). -/
def execIgnored (_w : Word) (s : State) : Result := .next s

end Sys2Proof.Machine
end

