-- ==== Sys2Proof/Machine/Display.lean ====
section
/-! DEFINITION. The display instructions and the sprite blitter (44_display.md R100-R109). -/

namespace Sys2Proof.Machine

/-- `00E0` CLS (R101). VF is not written. -/
def execCls (_x : Nibble) (s : State) : Result := .next (s.setDisplay (List.replicate s.cfg.dispBytes 0x00))

/-- The display while a sprite is drawn, and whether a pixel that was on has been turned off so far (R107). -/
structure Blit where
  display : List Byte
  collided : Bool
  deriving DecidableEq, Repr

/-- XOR `b` into display byte `j`; a bit on in both is a collision (R107). -/
def xorByte (c : Config) (j : Nat) (b : Byte) (t : Blit) : Blit where
  display := dispWrite c t.display j (dispRead c t.display j ^^^ b)
  collided := t.collided || (dispRead c t.display j &&& b) != 0

/-- The screen row of sprite row `r`: skipped at or beyond the bottom in no-wrap mode (R104), reduced below `DispH` in
wrap mode (R105). -/
def screenRow (c : Config) (y r : Nat) : Option Nat :=
  if y + r < c.dispH then some (y + r) else if c.drawWrap then some ((y + r) % c.dispH) else none

/-- The screen column of the sprite: skipped at or beyond the right edge in no-wrap mode (R104), reduced by `DispW` once in
wrap mode (R105). -/
def screenCol (c : Config) (x : Nat) : Option Nat :=
  if x < c.dispW then some x else if c.drawWrap then some (x - c.dispW) else none

/-- The 16-bit window of a sprite byte at column `px` (R106). -/
def spriteWindow (sprite : Byte) (px : Nat) : Word := (sprite.setWidth 16 <<< 8) >>> (px % 8)

/-- Draw one sprite byte at screen row `py`, column `px` (R102, R104-R107): the window's high byte into its display byte, its
low byte into the next byte of the row, or at the last byte column into the row's first byte (wrap) or nowhere (no-wrap). -/
def blitRow (c : Config) (py px : Nat) (sprite : Byte) (t : Blit) : Blit :=
  let rowStart := py * c.bytesPerRow
  let col := px / 8
  let t' := xorByte c (rowStart + col) (highByte (spriteWindow sprite px)) t
  if col + 1 < c.bytesPerRow then xorByte c (rowStart + col + 1) (lowByte (spriteWindow sprite px)) t'
  else if c.drawWrap then xorByte c rowStart (lowByte (spriteWindow sprite px)) t'
  else t'

/-- The first `n` rows of a sprite drawn at (x, y), read from memory at I (R102, R103). -/
def State.blit (s : State) (x y : Nat) : Nat → Blit
  | 0 => ⟨s.display, false⟩
  | r + 1 =>
    match screenRow s.cfg y r, screenCol s.cfg x with
    | some py, some px => blitRow s.cfg py px (s.memRead8 (s.effAddr r)) (s.blit x y r)
    | _, _ => s.blit x y r

/-- `CheckUnspecified(X, Y, n)` (R108): the reason to stop, if there is one. If both hold, the column is reported, which
60_exceptions.md R126 allows. -/
def drwUnspecified (c : Config) (x y n : Nat) : Option Unspecified :=
  if decide (2 * c.dispW ≤ x) && c.drawWrap then some .drwColumnOffScreen
  else if decide (0 < n) && decide (256 ≤ y + n - 1) && (decide (256 % c.dispH ≠ 0) || !c.drawWrap) then
    some .drwRowBeyondByte
  else none

/-- `Dxyn` DRW Vx, Vy, nibble (R102): operands first, VF last (R103, D18). -/
def execDrw (x y : Reg) (n : Nibble) (s : State) : Result :=
  match drwUnspecified s.cfg (s.getV x).toNat (s.getV y).toNat n.val with
  | some reason => s.raise reason
  | none =>
    let t := s.blit (s.getV x).toNat (s.getV y).toNat n.val
    .next ((s.setDisplay t.display).setV .vf (flagByte t.collided))

end Sys2Proof.Machine
end

