-- ==== Sys2Proof/Machine/IndexMemory.lean ====
section
/-! DEFINITION. The index register and memory transfers (43_index_and_memory.md R92-R99). -/

namespace Sys2Proof.Machine

/-- `Annn` LD I, addr (R93). -/
def execLdI (nnn : Addr12) (s : State) : Result := .next (s.setI (addr16 nnn))

/-- `Fx1E` ADD I, Vx (R94): mod 2^16, VF not written (D12). -/
def execAddI (x : Reg) (s : State) : Result := .next (s.setI (s.i + byte16 (s.getV x)))

/-- `Fx29` LD F, Vx (R95): the glyph of digit Vx; `Unspecified` when Vx >= 16 (D13). -/
def execLdF (x : Reg) (s : State) : Result :=
  if (s.getV x).toNat < 16 then .next (s.setI (BitVec.ofNat 16 (5 * (s.getV x).toNat)))
  else s.raise .fontDigitOutOfRange

/-- `Fx33` LD B, Vx (R96): hundreds, tens and ones at I, I+1, I+2. -/
def execLdB (x : Reg) (s : State) : Result :=
  let vx := s.getV x
  .next (((s.memWrite8 (s.effAddr 0) (vx / 100)).memWrite8 (s.effAddr 1) (vx / 10 % 10)).memWrite8 (s.effAddr 2) (vx % 10))

/-- The first `n` steps of the store loop of `Fx55`: V0 to V(n-1) stored at I, I+1, ... (R97). -/
def State.storeRegs (s : State) : Nat → State
  | 0 => s
  | k + 1 => (s.storeRegs k).memWrite8 (s.effAddr k) (s.getV (regOf k))

/-- `Fx55` LD [I], Vx (R97): V0 to Vx inclusive; I unchanged (D11). -/
def execStoreRegs (x : Reg) (s : State) : Result := .next (s.storeRegs (x.val + 1))

/-- The first `n` steps of the load loop of `Fx65`: V0 to V(n-1) loaded from I, I+1, ... (R98). -/
def State.loadRegs (s : State) : Nat → State
  | 0 => s
  | k + 1 => (s.loadRegs k).setV (regOf k) (s.memRead8 (s.effAddr k))

/-- `Fx65` LD Vx, [I] (R98): V0 to Vx inclusive; I unchanged (D11). -/
def execLoadRegs (x : Reg) (s : State) : Result := .next (s.loadRegs (x.val + 1))

end Sys2Proof.Machine
end

