-- ==== Sys2Proof/Machine/Keys.lean ====
section
/-! DEFINITION. The key instructions and the key-wait state machine (46_keys.md R116-R121). -/

namespace Sys2Proof.Machine

/-- `Ex9E` SKP Vx (R117): `Unspecified` when Vx >= 16 (D14). -/
def execSkp (x : Reg) (s : State) : Result :=
  match s.keyAt (s.getV x) with
  | some pressed => .next (s.skipIf pressed)
  | none => s.raise .skpKeyOutOfRange

/-- `ExA1` SKNP Vx (R118): `Unspecified` when Vx >= 16 (D14). -/
def execSknp (x : Reg) (s : State) : Result :=
  match s.keyAt (s.getV x) with
  | some pressed => .next (s.skipIf (!pressed))
  | none => s.raise .sknpKeyOutOfRange

/-- The lowest-numbered key that is pressed now and was not at the previous snapshot (R119, D15). -/
def State.newKey (s : State) : Option Key := (List.finRange 16).find? fun k => s.keys[k] && !s.kprev[k]

/-- `Fx0A` LD Vx, K (R119). A wait rewinds PC to MAR and snapshots K; a key that went down ends it. -/
def execLdVxK (x : Reg) (s : State) : Result :=
  if s.watching then
    match s.newKey with
    | some k => .next ((s.setV x (BitVec.ofNat 8 k.val)).setWait s.kprev false)
    | none => .next ((s.setWait s.keys true).setPc s.mar)
  else .next ((s.setWait s.keys true).setPc s.mar)

end Sys2Proof.Machine
end

