-- ==== Sys2Proof/Machine/Timers.lean ====
section
/-! DEFINITION. The timer instructions and the timer tick (45_timers.md R110-R115). -/

namespace Sys2Proof.Machine

/-- One timer counted down: a timer at zero stays at zero (R112, D2). -/
def countDown (b : Byte) : Byte := if 0 < b.toNat then b - 1 else b

/-- `TimerTick()` (R112). It writes DT and ST and nothing else. -/
def State.timerTick (s : State) : State := (s.setDt (countDown s.dt)).setSt (countDown s.st)

/-- `Fx07` LD Vx, DT (R113). -/
def execLdVxDt (x : Reg) (s : State) : Result := .next (s.setV x s.dt)

/-- `Fx15` LD DT, Vx (R114). -/
def execLdDtVx (x : Reg) (s : State) : Result := .next (s.setDt (s.getV x))

/-- `Fx18` LD ST, Vx (R115): ST is written only with a non-zero value. -/
def execLdStVx (x : Reg) (s : State) : Result := .next (if s.getV x != 0 then s.setSt (s.getV x) else s)

end Sys2Proof.Machine
end

