-- ==== Sys2Proof/Machine/HostEvents.lean ====
section
/-! DEFINITION. What acts on the machine between two steps: the timer, the host's keys, pause, resume and stop, and the
loading of a program (60_exceptions.md R134-R138, 70_reset_and_hazards.md R142, R143). -/

namespace Sys2Proof.Machine

/-- The core and the timer are enabled: not paused and not stopped (60_exceptions.md R138). -/
def State.running (s : State) : Bool := !s.paused && !s.stopped

/-- `SetKeyState(key, pressed)` (60_exceptions.md R134). -/
def State.setKeyState (s : State) (key : Key) (pressed : Bool) : State := { s with keys := s.keys.set key pressed }

/-- `Pause()` and `Resume()` (60_exceptions.md R136). -/
def State.setPaused (s : State) (b : Bool) : State := { s with paused := b }

/-- The stop signal: the run has ended (60_exceptions.md R136). -/
def State.stop (s : State) : State := { s with stopped := true }

/-- Memory `m` with the bytes of `p` stored from address `a` on. -/
def storeBytes (font : Vector Byte 80) (m : List Host.Cell) (a : Nat) : List Byte → List Host.Cell
  | [] => m
  | b :: p => storeBytes font (Memory.write font m a b) (a + 1) p

/-- The writes of `LoadProgram(P)`, in its order (70_reset_and_hazards.md R142). Memory with nothing listed is cleared memory
with the font (log 14). `K` and `paused` are not changed (D21). -/
def State.loaded (s : State) (p : List Byte) : State :=
  { s with
    mem := storeBytes s.cfg.fontTable [] 0x200 p
    display := List.replicate s.cfg.dispBytes 0x00
    v := Vector.replicate 16 0x00
    i := 0x0000
    mar := 0x0000
    dt := s.cfg.dt0
    st := s.cfg.st0
    stack := List.replicate s.cfg.stackDepth 0x0000
    sp := 0
    watching := false
    kprev := Vector.replicate 16 false
    pc := 0x0200
    cycle := 0 }

/-- `LoadProgram(P)` (70_reset_and_hazards.md R142): refused when P is longer than MemSize - 0x200 (R143, D22). -/
def loadProgram (p : List Byte) (s : State) : Result :=
  if p.length + 0x200 ≤ s.cfg.memSize then .next (s.loaded p) else .refused .programTooLong

/-- The machine as constructed from a configuration and the host's start-paused flag, with no key pressed (10_state.md R25,
R31, D37). What `loaded` does not overwrite of it is what a launch keeps. -/
def State.constructed (c : Config) (startPaused : Bool) : State :=
  { State.reset with cfg := c, paused := startPaused }

/-- A launch: construction from a legal configuration (00_scope.md R5, D28), then `LoadProgram` (10_state.md R31, D33). -/
def launch (c : Config) (startPaused : Bool) (p : List Byte) : Result :=
  if c.wf then loadProgram p (State.constructed c startPaused) else .refused .illegalConfiguration

end Sys2Proof.Machine
end

