-- ==== Sys2Proof/Machine/Agents.lean ====
section
/-! DEFINITION. The step of the core (40_step_and_dispatch.md R61), the events of all agents (60_exceptions.md R138), and the
order in which they come. -/

namespace Sys2Proof.Machine

/-- The state that the fetch leaves: MAR holds the fetch address and PC that address plus 2 (R61). -/
def State.fetched (s : State) : State := { s with mar := s.pc, pc := s.pc + 2 }

/-- The step is counted, mod 2^64 (R61, D26). -/
def State.counted (s : State) : State := { s with cycle := s.cycle + 1 }

/-- Count a completed step; a step that stops is not counted (R61). -/
def countStep : Result → Result
  | .next s => .next s.counted
  | .fault f => .fault f
  | .refused r => .refused r

/-- `Step()` (R61): fetch, advance, execute, count. While paused or stopped no step happens and the state stands still
(10_state.md R25, 60_exceptions.md R136, R141; log 5). -/
def coreStep (s : State) : Result :=
  if s.running then countStep (exec (decodeWord (s.memRead16 s.pc)) s.fetched) else .next s

/-- One event (60_exceptions.md R138). A timer tick while paused or stopped does not happen (10_state.md R25, D36). -/
def applyEvent (e : Event) (s : State) : Result :=
  match e with
  | .coreStep => coreStep s
  | .timerTick => .next (if s.running then s.timerTick else s)
  | .setKeyState key pressed => .next (s.setKeyState key pressed)
  | .pause => .next (s.setPaused true)
  | .resume => .next (s.setPaused false)
  | .stop => .next s.stop

/-- The same machine under another schedule. -/
def State.setSchedule (s : State) (σ : Schedule) : State := { s with schedule := σ }

/-- The event that comes next (log 9). -/
def State.nextEvent (s : State) : Event := s.schedule.head

/-- The state with its next event taken off the schedule. -/
def State.advance (s : State) : State := s.setSchedule s.schedule.tail

end Sys2Proof.Machine
end

