-- ==== Sys2Proof/Machine/Step.lean ====
section
/-! DEFINITION. The one step function of the model, and the placing of an instruction for the host's tests. -/

namespace Sys2Proof.Machine

/-- The one step function: the next event of the schedule happens (60_exceptions.md R126, R138; log 9). -/
def step (s : State) : Host.Outcome State Fault Refusal := applyEvent s.nextEvent s.advance

/-- `s` with the instruction word whose low `nbits` bits are those of `w` stored big-endian where the next fetch reads it, at
PC, with nothing that would keep the core from stepping (a pause, a stop), and with the core's step as the next event. It
stands for the load of a program from outside the machine (log 10). -/
def State.withFetchWord (s : State) (nbits w : Nat) : State :=
  { s.memWrite16 s.pc (BitVec.ofNat 16 (w % 2 ^ nbits)) with
    paused := false, stopped := false, schedule := .cons .coreStep s.schedule }

end Sys2Proof.Machine
end

