-- ==== Sys2Proof/Machine/Invariant.lean ====
section
/-! DEFINITION. The invariants of the state, which every event keeps. -/

namespace Sys2Proof.Machine

/-- What holds of every state the spec describes: a legal configuration (00_scope.md R5), memory in canonical form, as many
stack slots as configured and SP at most that (10_state.md R17, R18), and a display of exactly DispBytes bytes (R23). -/
abbrev State.wf (s : State) : Prop :=
  s.cfg.wf ∧ Memory.wf s.cfg s.mem ∧ s.stack.length = s.cfg.stackDepth ∧ s.sp ≤ s.cfg.stackDepth ∧
    s.display.length = s.cfg.dispBytes

/-- The invariant of the key wait (46_keys.md R120): while `watching`, PC = MAR and the word there is an `Fx0A`. -/
abbrev State.waitInv (s : State) : Prop :=
  s.watching = true → s.pc = s.mar ∧ ∃ x : Reg, decodeWord (s.memRead16 s.pc) = .ldVxK x

end Sys2Proof.Machine
end

