-- ==== Sys2Proof/Machine/Outputs.lean ====
section
/-! DEFINITION. What the host can see of the machine besides its fields (60_exceptions.md R131-R135). A read changes nothing. -/

namespace Sys2Proof.Machine

/-- Pixel (px, py) of display bytes `d` is on: bit `7 - (px mod 8)` of byte `py * BPR + px div 8` (10_state.md R23). -/
def pixelOf (c : Config) (d : List Byte) (px py : Nat) : Bool :=
  (dispRead c d (py * c.bytesPerRow + px / 8)).getLsbD (7 - px % 8)

/-- Pixel (px, py) of the display is on (10_state.md R23). -/
def State.pixel (s : State) (px py : Nat) : Bool := pixelOf s.cfg s.display px py

/-- The sound output (60_exceptions.md R133). -/
def State.soundOn (s : State) : Bool := s.st != 0

/-- The `ignored(a, w)` event that the next step of the core emits to the log, if it executes an ignored word
(40_step_and_dispatch.md R65, D32). It is an output, not state. -/
def State.ignoredEvent (s : State) : Option (Word × Word) :=
  if isIgnoredWord (s.memRead16 s.pc) then some (s.pc, s.memRead16 s.pc) else none

end Sys2Proof.Machine
end

