-- ==== Sys2Proof/Machine/RunEnd.lean ====
section
/-! DEFINITION. Runs, for claims: a start and any order of events without end (60_exceptions.md R126, R138), and the end of a run
(70_reset_and_hazards.md R146, the spec's own decision D39). A claim about a program takes the order of events as a
variable, or as a premise (45_timers.md R111); `Schedule.events` gives the order that a schedule stands for. -/

namespace Sys2Proof.Machine

/-- The state is halted at `h` (70_reset_and_hazards.md R146): the next instruction is a jump to itself. The core does not
stop there. -/
abbrev State.haltedAt (s : State) (h : Word) : Prop :=
  h.toNat ≤ 0xFFF ∧ s.pc = h ∧ s.memRead16 h = 0x1000 ||| h ∧ s.watching = false

/-- The state is halted: at its PC, the one address at which it can be (R146). -/
abbrev State.halted (s : State) : Prop := s.haltedAt s.pc

/-- The first `n` events of the order `σ`, one after the other, from `s`. DESIGN CHOICE (log 23): an `Unspecified` stop ends the
whole run, so no tick and no host event follows it, where R138 bars only the core's step and R124 says that a model stops. -/
def runEvents (σ : Nat → Event) : Nat → State → Result
  | 0, s => .next s
  | n + 1, s =>
    match applyEvent (σ 0) s with
    | .next t => runEvents (fun k => σ (k + 1)) n t
    | .fault f => .fault f
    | .refused r => .refused r

/-- What has become of a run so far (R146). -/
inductive RunStatus where
  /-- The run has ended: `at_` is the first halted state it reached. -/
  | ended (at_ : State)
  /-- The run has failed at an `Unspecified` stop before it reached a halted state: it has not ended. -/
  | failed (why : Fault)
  /-- An event was refused. No event of the model is (log 22). -/
  | refused (why : Refusal)
  /-- No halted state and no stop so far: the run has got to `at_`. -/
  | going (at_ : State)
  deriving DecidableEq, Repr

/-- What has become of the run from `s` after at most `n` events of the order `σ`. It looks no further than the first halted
state; the machine itself goes on there (R146). -/
def runStatus (σ : Nat → Event) : Nat → State → RunStatus
  | 0, s => if s.halted then .ended s else .going s
  | n + 1, s =>
    if s.halted then .ended s
    else match applyEvent (σ 0) s with
      | .next t => runStatus (fun k => σ (k + 1)) n t
      | .fault f => .failed f
      | .refused r => .refused r

/-- The run from `s` with events in the order `σ` ends, at `t` (R146). -/
def RunEnds (σ : Nat → Event) (s t : State) : Prop := ∃ n, runStatus σ n s = .ended t

/-- The run fails, by `f` (R146): it does not end. -/
def RunFails (σ : Nat → Event) (s : State) (f : Fault) : Prop := ∃ n, runStatus σ n s = .failed f

/-- The run comes to an event that is refused. No run does (log 22). -/
def RunRefused (σ : Nat → Event) (s : State) (r : Refusal) : Prop := ∃ n, runStatus σ n s = .refused r

/-- The run never ends: it neither ends, nor fails, nor is refused (R146). A run that the host stops for good before it is
halted is one of these (log 22). -/
def RunNeverEnds (σ : Nat → Event) (s : State) : Prop := ∀ n, ∃ t, runStatus σ n s = .going t

end Sys2Proof.Machine
end

