-- ==== Sys2Proof/Safety.lean ====
section
/-! DEFINITION. The terms in which claims speak: which parts of the state are unchanged, what a sprite covers, and a run
that does not stop. The end of a run is in Machine/RunEnd.lean. -/

namespace Sys2Proof.Machine

/-- The parts of the state that a frame names. -/
inductive Part where
  | cfg | v | pc | mar | i | dt | st | stack | keys | wait | cycle | memory | display | paused | stopped | draws | schedule
  deriving DecidableEq, Repr

/-- The part is the same in both states. Memory is compared through the read of one byte, at every address. -/
def Part.same (s t : State) : Part → Prop
  | .cfg => t.cfg = s.cfg
  | .v => ∀ r, t.getV r = s.getV r
  | .pc => t.pc = s.pc
  | .mar => t.mar = s.mar
  | .i => t.i = s.i
  | .dt => t.dt = s.dt
  | .st => t.st = s.st
  | .stack => t.stack = s.stack ∧ t.sp = s.sp
  | .keys => t.keys = s.keys
  | .wait => t.kprev = s.kprev ∧ t.watching = s.watching
  | .cycle => t.cycle = s.cycle
  | .memory => ∀ a, t.memRead8 a = s.memRead8 a
  | .display => t.display = s.display
  | .paused => t.paused = s.paused
  | .stopped => t.stopped = s.stopped
  | .draws => t.draws = s.draws
  | .schedule => t.schedule = s.schedule

/-- Every part of the state is unchanged from `s` to `t` but the parts listed. -/
def OnlyChanges (changed : List Part) (s t : State) : Prop := ∀ p, p ∉ changed → p.same s t

/-- Every word that selects the row of 30_encoding.md R55 with this mask and match decodes to the instruction `i` makes of
its fields. -/
def DecodesRow (mask value : Word) (i : Word → Instr) : Prop := ∀ w, w &&& mask = value → decodeWord w = i w

/-- Pixel `c` of sprite row `r`: the sprite byte at I + r, its most significant bit leftmost (44_display.md R103). -/
def State.spriteBit (s : State) (r c : Nat) : Bool := (s.memRead8 (s.effAddr r)).getLsbD (7 - c)

/-- Sprite row `r`, drawn at (x, y), has a pixel on at screen pixel (px, py): the sprite's pixel at column x + c and row
y + r, both reduced to the screen in wrap mode (44_display.md R104, R105). -/
def State.covers (s : State) (x y px py r : Nat) : Prop :=
  ∃ c < 8, s.spriteBit r c = true ∧
    if s.cfg.drawWrap then (x + c) % s.cfg.dispW = px ∧ (y + r) % s.cfg.dispH = py else x + c = px ∧ y + r = py

/-- Screen pixel (px, py) after the first `n` rows of a sprite have been drawn at (x, y): each row that covers it flips it
(44_display.md R107). -/
def State.flipped (s : State) (x y px py : Nat) : Nat → Prop
  | 0 => s.pixel px py = true
  | r + 1 => Xor (s.flipped x y px py r) (s.covers x y px py r)

/-- Some row of the sprite turns a screen pixel off that was on when the row was drawn (44_display.md R107). -/
def State.collides (s : State) (x y n : Nat) : Prop :=
  ∃ r < n, ∃ px < s.cfg.dispW, ∃ py < s.cfg.dispH, s.flipped x y px py r ∧ s.covers x y px py r

/-- The first `n` events of the order `σ` from `s` reach no fault and no refusal. -/
def SafeFor (σ : Nat → Event) (n : Nat) (s : State) : Prop := ∃ t, runEvents σ n s = .next t

end Sys2Proof.Machine
end

