-- ==== Sys2Proof/Certificates/Slice0/Obligations.lean ====
section
/-! DEFINITION. The statements for the provers. Each docstring names the rule of spec/ that the statement formalises. -/

namespace Sys2Proof.Claims
open Sys2Proof.Machine

/-- The parts of the state that an instruction may change (10_state.md R9, R12 to R24; 20_memory.md R42). -/
def mayChange : Instr → List Part
  | .cls _ => [.display]
  | .ret _ => [.pc, .stack]
  | .jp _ => [.pc]
  | .call _ => [.pc, .stack]
  | .seByte _ _ => [.pc]
  | .sneByte _ _ => [.pc]
  | .seReg _ _ _ => [.pc]
  | .ldByte _ _ => [.v]
  | .addByte _ _ => [.v]
  | .ldReg _ _ => [.v]
  | .orReg _ _ => [.v]
  | .andReg _ _ => [.v]
  | .xorReg _ _ => [.v]
  | .addReg _ _ => [.v]
  | .subReg _ _ => [.v]
  | .shr _ _ => [.v]
  | .subnReg _ _ => [.v]
  | .shl _ _ => [.v]
  | .sneReg _ _ _ => [.pc]
  | .ldI _ => [.i]
  | .jpV0 _ => [.pc]
  | .rnd _ _ => [.v, .draws]
  | .drw _ _ _ => [.v, .display]
  | .skp _ => [.pc]
  | .sknp _ => [.pc]
  | .ldVxDt _ => [.v]
  | .ldVxK _ => [.v, .pc, .wait]
  | .ldDtVx _ => [.dt]
  | .ldStVx _ => [.st]
  | .addI _ => [.i]
  | .ldF _ => [.i]
  | .ldB _ => [.memory]
  | .storeRegs _ => [.memory]
  | .loadRegs _ => [.v]
  | .ignored _ => []

/-- The instruction writes VF as a flag: the table of 10_state.md R9. -/
def writesFlag : Instr → Prop
  | .addByte _ _ | .addReg _ _ | .subReg _ _ | .subnReg _ _ | .shr _ _ | .shl _ _ | .drw _ _ _ => True
  | _ => False

/-- VF is the instruction's destination register: the list below the table of 10_state.md R9. -/
def writesVfAsDestination : Instr → Prop
  | .ldByte x _ | .ldReg x _ | .orReg x _ | .andReg x _ | .xorReg x _ | .rnd x _ | .ldVxDt x | .ldVxK x | .loadRegs x => x = .vf
  | _ => False

/-- The instruction is a shift whose destination is VF (10_state.md R10). -/
def shiftsVf : Instr → Prop
  | .shr x _ | .shl x _ => x = .vf
  | _ => False

/-- The complete table of the places that raise `Unspecified` (60_exceptions.md R124, 44_display.md R108). -/
def stopsFor (i : Instr) (s : State) : Unspecified → Prop
  | .fontDigitOutOfRange => ∃ x, i = .ldF x ∧ 16 ≤ (s.getV x).toNat
  | .skpKeyOutOfRange => ∃ x, i = .skp x ∧ 16 ≤ (s.getV x).toNat
  | .sknpKeyOutOfRange => ∃ x, i = .sknp x ∧ 16 ≤ (s.getV x).toNat
  | .drwColumnOffScreen => ∃ x y n, i = .drw x y n ∧ s.cfg.drawWrap = true ∧ 2 * s.cfg.dispW ≤ (s.getV x).toNat
  | .drwRowBeyondByte => ∃ x y n, i = .drw x y n ∧ 0 < n.val ∧ 256 ≤ (s.getV y).toNat + n.val - 1 ∧
      (s.cfg.drawWrap = false ∨ 256 % s.cfg.dispH ≠ 0)

end Sys2Proof.Claims

open Sys2Proof Sys2Proof.Machine Sys2Proof.Claims

/-! ### Encoding (30_encoding.md) -/

/-- Decoding the word of a well-formed instruction gives the instruction back, for every value of every field. The fields
kept though ignored are the model's (log 15); that family 0 and families 5 and 9 ignore them is the spec's own decision (D5,
D6). -/
def Obligations.DecodeOfEncodeIsIdentity : Prop :=
  ∀ i : Instr, i.wf = true → decodeWord (encode i) = i ∧ decodeBytes (encodeBytes i) = .ok (i, [])

/-- R66: decoding is total: every word selects one well-formed instruction. The spec marks R66 as derived. That the instruction's
word is the word itself, also where a nibble is ignored (x of `00E0` and `00EE`, n of `5xyn` and `9xyn`, y of the shifts),
rests on the model keeping those nibbles in the syntax (log 15), not on R66. That family 0 and families 5 and 9 ignore them,
and that family 8's unknown words are ignored, is the spec's own decision (D5, D6, D7; log 13). -/
def Obligations.EveryWordIsExactlyOneInstruction : Prop :=
  ∀ w : Word, (decodeWord w).wf = true ∧ encode (decodeWord w) = w

/-- R56: the ignored words are exactly those that match no row. Family 8's unknown words are ignored by the spec's own
decision D7. -/
def Obligations.IgnoredWordsMatchNoRow : Prop :=
  ∀ w : Word, (∃ u, decodeWord w = .ignored u) ↔ ∀ r ∈ opcodeRows, w &&& r.mask ≠ r.value

/-- R55: no word matches two rows. The spec marks the sentence as derived from the masks. -/
def Obligations.OpcodeRowsArePairwiseDisjoint : Prop :=
  opcodeRows.length = 34 ∧ opcodeRows.Pairwise fun r q => ∀ w : Word, ¬(w &&& r.mask = r.value ∧ w &&& q.mask = q.value)

/-- Words written out in the spec decode to the instructions they stand for: 95_test_vectors.md sections 2.1 (801F), 2.2 (6A42),
2.5 (00E0), 2.7 (E19E) and 3 (the others). That 801F is ignored is the spec's own decision D7 (log 13). -/
def Obligations.WordsOfTheSpecDecode : Prop :=
  decodeWord 0x00E0#16 = .cls 0 ∧ decodeWord 0x6A42#16 = .ldByte 0xA 0x42 ∧ decodeWord 0x8104#16 = .addReg 1 0 ∧
    decodeWord 0x2204#16 = .call 0x204 ∧ decodeWord 0xD115#16 = .drw 1 1 5 ∧ decodeWord 0xF30A#16 = .ldVxK 3 ∧
    decodeWord 0xF265#16 = .loadRegs 2 ∧ decodeWord 0xE19E#16 = .skp 1 ∧ decodeWord 0x801F#16 = .ignored 0x801F

/-! ### Register arithmetic and logic (41_arithmetic.md) -/

/-- R69: `6xkk` loads the immediate. -/
def Obligations.LdByteLoadsTheImmediate : Prop :=
  DecodesRow 0xF000#16 0x6000#16 (fun w => .ldByte (fieldX w) (fieldKK w)) ∧
  ∀ x kk s, ∃ t, exec (.ldByte x kk) s = .next t ∧ t.getV x = kk ∧ (∀ r, r ≠ x → t.getV r = s.getV r) ∧
    OnlyChanges [.v] s t

/-- R70: `7xkk` adds mod 256 and writes the carry to VF last. VF is written last when x = F: the spec's own decision D8. -/
def Obligations.AddByteWrapsAndWritesCarry : Prop :=
  DecodesRow 0xF000#16 0x7000#16 (fun w => .addByte (fieldX w) (fieldKK w)) ∧
  ∀ x kk s, ∃ t, exec (.addByte x kk) s = .next t ∧
    (x ≠ .vf → (t.getV x).toNat = ((s.getV x).toNat + kk.toNat) % 256) ∧
    t.getV .vf = (if (s.getV x).toNat + kk.toNat > 255 then 0x01 else 0x00) ∧
    (∀ r, r ≠ x → r ≠ .vf → t.getV r = s.getV r) ∧ OnlyChanges [.v] s t

/-- R71: `8xy0` copies Vy to Vx. -/
def Obligations.LdRegCopiesTheRegister : Prop :=
  DecodesRow 0xF00F#16 0x8000#16 (fun w => .ldReg (fieldX w) (fieldY w)) ∧
  ∀ x y s, ∃ t, exec (.ldReg x y) s = .next t ∧ t.getV x = s.getV y ∧ (∀ r, r ≠ x → t.getV r = s.getV r) ∧
    OnlyChanges [.v] s t

/-- R72, R73, R74: OR, AND and XOR are bitwise, and leave VF unchanged unless it is the destination. That VF is unchanged is
the spec's own decision D10. -/
def Obligations.LogicIsBitwiseAndKeepsVf : Prop :=
  DecodesRow 0xF00F#16 0x8001#16 (fun w => .orReg (fieldX w) (fieldY w)) ∧
  DecodesRow 0xF00F#16 0x8002#16 (fun w => .andReg (fieldX w) (fieldY w)) ∧
  DecodesRow 0xF00F#16 0x8003#16 (fun w => .xorReg (fieldX w) (fieldY w)) ∧
  ∀ x y s,
    (∃ t, exec (.orReg x y) s = .next t ∧
      (∀ b, (t.getV x).getLsbD b = ((s.getV x).getLsbD b || (s.getV y).getLsbD b)) ∧
      (∀ r, r ≠ x → t.getV r = s.getV r) ∧ OnlyChanges [.v] s t) ∧
    (∃ t, exec (.andReg x y) s = .next t ∧
      (∀ b, (t.getV x).getLsbD b = ((s.getV x).getLsbD b && (s.getV y).getLsbD b)) ∧
      (∀ r, r ≠ x → t.getV r = s.getV r) ∧ OnlyChanges [.v] s t) ∧
    (∃ t, exec (.xorReg x y) s = .next t ∧
      (∀ b, (t.getV x).getLsbD b = ((s.getV x).getLsbD b ^^ (s.getV y).getLsbD b)) ∧
      (∀ r, r ≠ x → t.getV r = s.getV r) ∧ OnlyChanges [.v] s t)

/-- R75: `8xy4` adds mod 256 and writes the carry to VF last. -/
def Obligations.AddRegWrapsAndWritesCarry : Prop :=
  DecodesRow 0xF00F#16 0x8004#16 (fun w => .addReg (fieldX w) (fieldY w)) ∧
  ∀ x y s, ∃ t, exec (.addReg x y) s = .next t ∧
    (x ≠ .vf → (t.getV x).toNat = ((s.getV x).toNat + (s.getV y).toNat) % 256) ∧
    t.getV .vf = (if (s.getV x).toNat + (s.getV y).toNat > 255 then 0x01 else 0x00) ∧
    (∀ r, r ≠ x → r ≠ .vf → t.getV r = s.getV r) ∧ OnlyChanges [.v] s t

/-- R76: `8xy5` subtracts mod 256; VF is 1 only when Vx > Vy, strictly. -/
def Obligations.SubRegSetsVfOnStrictlyGreater : Prop :=
  DecodesRow 0xF00F#16 0x8005#16 (fun w => .subReg (fieldX w) (fieldY w)) ∧
  ∀ x y s, ∃ t, exec (.subReg x y) s = .next t ∧
    (x ≠ .vf → (t.getV x).toNat = ((s.getV x).toNat + 256 - (s.getV y).toNat) % 256) ∧
    t.getV .vf = (if (s.getV x).toNat > (s.getV y).toNat then 0x01 else 0x00) ∧
    (∀ r, r ≠ x → r ≠ .vf → t.getV r = s.getV r) ∧ OnlyChanges [.v] s t

/-- R77: `8xy7` subtracts the other way; VF is 1 only when Vy > Vx, strictly. -/
def Obligations.SubnRegSetsVfOnStrictlyGreater : Prop :=
  DecodesRow 0xF00F#16 0x8007#16 (fun w => .subnReg (fieldX w) (fieldY w)) ∧
  ∀ x y s, ∃ t, exec (.subnReg x y) s = .next t ∧
    (x ≠ .vf → (t.getV x).toNat = ((s.getV y).toNat + 256 - (s.getV x).toNat) % 256) ∧
    t.getV .vf = (if (s.getV y).toNat > (s.getV x).toNat then 0x01 else 0x00) ∧
    (∀ r, r ≠ x → r ≠ .vf → t.getV r = s.getV r) ∧ OnlyChanges [.v] s t

/-- R78: `8xy6` shifts Vx right, Vy ignored; VF is the old bit 0, and ends 0x00 when x = F. The case x = F is the spec's own
decision D9. -/
def Obligations.ShrShiftsVxAndWritesTheLostBit : Prop :=
  DecodesRow 0xF00F#16 0x8006#16 (fun w => .shr (fieldX w) (fieldY w)) ∧
  ∀ x y s, ∃ t, exec (.shr x y) s = .next t ∧
    (x ≠ .vf → (t.getV x).toNat = (s.getV x).toNat / 2 ∧ (t.getV .vf).toNat = (s.getV x).toNat % 2) ∧
    (x = .vf → t.getV .vf = 0x00) ∧
    (∀ r, r ≠ x → r ≠ .vf → t.getV r = s.getV r) ∧ OnlyChanges [.v] s t

/-- R79: `8xyE` shifts Vx left, Vy ignored; VF is the old bit 7, and ends 0x02 or 0x00 when x = F. -/
def Obligations.ShlShiftsVxAndWritesTheLostBit : Prop :=
  DecodesRow 0xF00F#16 0x800E#16 (fun w => .shl (fieldX w) (fieldY w)) ∧
  ∀ x y s, ∃ t, exec (.shl x y) s = .next t ∧
    (x ≠ .vf → (t.getV x).toNat = (s.getV x).toNat * 2 % 256 ∧ (t.getV .vf).toNat = (s.getV x).toNat / 128) ∧
    (x = .vf → t.getV .vf = if 128 ≤ (s.getV .vf).toNat then 0x02 else 0x00) ∧
    (∀ r, r ≠ x → r ≠ .vf → t.getV r = s.getV r) ∧ OnlyChanges [.v] s t

/-- R80: `Cxkk` masks a fresh random byte. The byte is the model's free value (log 7): the statement holds for every value
of the count of draws. -/
def Obligations.RndMasksAFreshDraw : Prop :=
  DecodesRow 0xF000#16 0xC000#16 (fun w => .rnd (fieldX w) (fieldKK w)) ∧
  ∀ x kk s, ∃ t, exec (.rnd x kk) s = .next t ∧ t.getV x = Config.randomByte s.draws &&& kk ∧ t.draws = s.draws + 1 ∧
    (kk = 0x00 → t.getV x = 0x00) ∧ (kk = 0xFF → t.getV x = Config.randomByte s.draws) ∧
    (∀ r, r ≠ x → t.getV r = s.getV r) ∧ OnlyChanges [.v, .draws] s t

/-! ### Control flow (42_control_flow.md) -/

/-- R83: `1nnn` jumps, with no check of the target. That the target is not checked is the spec's own decision D24. -/
def Obligations.JpJumpsAnywhere : Prop :=
  DecodesRow 0xF000#16 0x1000#16 (fun w => .jp (fieldNNN w)) ∧
  ∀ nnn s, ∃ t, exec (.jp nnn) s = .next t ∧ t.pc.toNat = nnn.toNat ∧ OnlyChanges [.pc] s t

/-- R84: `Bnnn` jumps to nnn + V0. -/
def Obligations.JpV0AddsV0 : Prop :=
  DecodesRow 0xF000#16 0xB000#16 (fun w => .jpV0 (fieldNNN w)) ∧
  ∀ nnn s, ∃ t, exec (.jpV0 nnn) s = .next t ∧ t.pc.toNat = nnn.toNat + (s.getV 0).toNat ∧ OnlyChanges [.pc] s t

/-- R85: `2nnn` refuses targets below 0x200, pushes MAR unless the stack is full, and jumps. That a full stack still jumps
is the spec's own decision D38. -/
def Obligations.CallPushesMarAndJumps : Prop :=
  DecodesRow 0xF000#16 0x2000#16 (fun w => .call (fieldNNN w)) ∧
  ∀ nnn s, s.wf → ∃ t, exec (.call nnn) s = .next t ∧
    (nnn.toNat < 0x200 → OnlyChanges [] s t) ∧
    (0x200 ≤ nnn.toNat → t.pc.toNat = nnn.toNat ∧
      (s.sp < s.cfg.stackDepth → t.sp = s.sp + 1 ∧ t.stack[s.sp]? = some s.mar ∧ ∀ j, j ≠ s.sp → t.stack[j]? = s.stack[j]?) ∧
      (s.sp = s.cfg.stackDepth → t.sp = s.sp ∧ t.stack = s.stack)) ∧
    OnlyChanges [.pc, .stack] s t

/-- R86: `00EE` pops into PC, at the configured resume point; an empty stack gives 0x00FF and keeps SP at 0. Every x, the
two resume points and the value 0x00FF are the spec's own decisions D5, D23 and D34. -/
def Obligations.RetPopsIntoPc : Prop :=
  DecodesRow 0xF0FF#16 0x00EE#16 (fun w => .ret (fieldX w)) ∧
  ∀ x s, s.wf → ∃ t r, exec (.ret x) s = .next t ∧
    (0 < s.sp → s.stack[s.sp - 1]? = some r ∧ t.sp + 1 = s.sp) ∧ (s.sp = 0 → r = 0x00FF ∧ t.sp = 0) ∧
    (s.cfg.retResume = .callSite → t.pc = r) ∧ (s.cfg.retResume = .afterCall → t.pc = r + 2) ∧
    t.stack = s.stack ∧ OnlyChanges [.pc, .stack] s t

/-- R87, R88: `3xkk` and `4xkk` skip 2 more bytes when Vx is, or is not, the immediate. -/
def Obligations.SkipsOnByteComparison : Prop :=
  DecodesRow 0xF000#16 0x3000#16 (fun w => .seByte (fieldX w) (fieldKK w)) ∧
  DecodesRow 0xF000#16 0x4000#16 (fun w => .sneByte (fieldX w) (fieldKK w)) ∧
  ∀ x kk s,
    (∃ t, exec (.seByte x kk) s = .next t ∧ t.pc = (if s.getV x = kk then s.pc + 2 else s.pc) ∧ OnlyChanges [.pc] s t) ∧
    (∃ t, exec (.sneByte x kk) s = .next t ∧ t.pc = (if s.getV x = kk then s.pc else s.pc + 2) ∧ OnlyChanges [.pc] s t)

/-- R89, R90: `5xyn` and `9xyn` skip 2 more bytes when Vx is, or is not, Vy, for every n. That the low nibble is not checked
is the spec's own decision D6. -/
def Obligations.SkipsOnRegisterComparison : Prop :=
  DecodesRow 0xF000#16 0x5000#16 (fun w => .seReg (fieldX w) (fieldY w) (fieldN w)) ∧
  DecodesRow 0xF000#16 0x9000#16 (fun w => .sneReg (fieldX w) (fieldY w) (fieldN w)) ∧
  ∀ x y n s,
    (∃ t, exec (.seReg x y n) s = .next t ∧ t.pc = (if s.getV x = s.getV y then s.pc + 2 else s.pc) ∧
      OnlyChanges [.pc] s t) ∧
    (∃ t, exec (.sneReg x y n) s = .next t ∧ t.pc = (if s.getV x = s.getV y then s.pc else s.pc + 2) ∧
      OnlyChanges [.pc] s t)

/-- A call and the return that follows it: the return goes to the call itself or to the word after it, by the
configuration, and gives the stack pointer back (42_control_flow.md R85, R86; 90_conflicts.md C3). The spec marks the
consequence as derived, and RetResume is its own parameter D23. -/
def Obligations.ReturnComesBackToTheCall : Prop :=
  ∀ nnn x s, s.wf → 0x200 ≤ nnn.toNat → s.sp < s.cfg.stackDepth →
    ∃ t u, exec (.call nnn) s = .next t ∧ exec (.ret x) t = .next u ∧ u.sp = s.sp ∧
      (s.cfg.retResume = .callSite → u.pc = s.mar) ∧ (s.cfg.retResume = .afterCall → u.pc = s.mar + 2)

/-! ### Index register and memory transfers (43_index_and_memory.md) -/

/-- R93: `Annn` sets I. -/
def Obligations.LdISetsTheIndex : Prop :=
  DecodesRow 0xF000#16 0xA000#16 (fun w => .ldI (fieldNNN w)) ∧
  ∀ nnn s, ∃ t, exec (.ldI nnn) s = .next t ∧ t.i.toNat = nnn.toNat ∧ OnlyChanges [.i] s t

/-- R94: `Fx1E` adds Vx to I mod 2^16 and writes no flag. The wrap and the unwritten flag are the spec's own decisions D3
and D12. -/
def Obligations.AddIWrapsAt16Bits : Prop :=
  DecodesRow 0xF0FF#16 0xF01E#16 (fun w => .addI (fieldX w)) ∧
  ∀ x s, ∃ t, exec (.addI x) s = .next t ∧ t.i.toNat = (s.i.toNat + (s.getV x).toNat) % 2 ^ 16 ∧ OnlyChanges [.i] s t

/-- R95: `Fx29` points I at the glyph of digit Vx, and raises `Unspecified` when Vx >= 16. The stop is the spec's own
decision D13 (log 8). -/
def Obligations.LdFPointsAtTheGlyph : Prop :=
  DecodesRow 0xF0FF#16 0xF029#16 (fun w => .ldF (fieldX w)) ∧
  ∀ x s,
    ((s.getV x).toNat < 16 → ∃ t, exec (.ldF x) s = .next t ∧ t.i.toNat = 5 * (s.getV x).toNat ∧ OnlyChanges [.i] s t) ∧
    (16 ≤ (s.getV x).toNat → exec (.ldF x) s = .fault (.unspecified .fontDigitOutOfRange s))

/-- R96: `Fx33` stores the hundreds, tens and ones of Vx at I, I+1 and I+2, each dropped on its own beyond memory, and
leaves every other byte as it was. -/
def Obligations.LdBStoresTheDecimalDigits : Prop :=
  DecodesRow 0xF0FF#16 0xF033#16 (fun w => .ldB (fieldX w)) ∧
  ∀ x s, s.wf → ∃ t, exec (.ldB x) s = .next t ∧
    (∀ k < 3, (s.effAddr k).toNat = (s.i.toNat + k) % 2 ^ 16) ∧
    ((s.effAddr 0).toNat < s.cfg.memSize → (t.memRead8 (s.effAddr 0)).toNat = (s.getV x).toNat / 100) ∧
    ((s.effAddr 1).toNat < s.cfg.memSize → (t.memRead8 (s.effAddr 1)).toNat = (s.getV x).toNat / 10 % 10) ∧
    ((s.effAddr 2).toNat < s.cfg.memSize → (t.memRead8 (s.effAddr 2)).toNat = (s.getV x).toNat % 10) ∧
    (∀ a, (∀ k < 3, a ≠ s.effAddr k) → t.memRead8 a = s.memRead8 a) ∧ OnlyChanges [.memory] s t

/-- R97: `Fx55` stores V0 to Vx at I, I+1, ..., each dropped on its own beyond memory, leaves every other byte as it was, and
leaves I unchanged. That I is unchanged is the spec's own decision D11. -/
def Obligations.StoreRegsStoresV0ToVx : Prop :=
  DecodesRow 0xF0FF#16 0xF055#16 (fun w => .storeRegs (fieldX w)) ∧
  ∀ x s, s.wf → ∃ t, exec (.storeRegs x) s = .next t ∧
    (∀ r : Reg, r ≤ x → (s.effAddr r.val).toNat < s.cfg.memSize → t.memRead8 (s.effAddr r.val) = s.getV r) ∧
    (∀ a, (∀ r : Reg, r ≤ x → a ≠ s.effAddr r.val) → t.memRead8 a = s.memRead8 a) ∧ OnlyChanges [.memory] s t

/-- R98: `Fx65` loads V0 to Vx from I, I+1, ..., 0xFF beyond memory, and leaves I unchanged. -/
def Obligations.LoadRegsLoadsV0ToVx : Prop :=
  DecodesRow 0xF0FF#16 0xF065#16 (fun w => .loadRegs (fieldX w)) ∧
  ∀ x s, ∃ t, exec (.loadRegs x) s = .next t ∧
    (∀ r : Reg, r ≤ x → t.getV r = s.memRead8 (s.effAddr r.val)) ∧
    (∀ r : Reg, x < r → t.getV r = s.getV r) ∧
    (∀ r : Reg, s.cfg.memSize ≤ (s.effAddr r.val).toNat → s.memRead8 (s.effAddr r.val) = 0xFF) ∧ OnlyChanges [.v] s t

/-- Storing a block of registers and loading it again, with I unchanged, gives every register back, where the block is inside
memory (43_index_and_memory.md R97, R98). It rests on I being unchanged, the spec's own decision D11. -/
def Obligations.LoadAfterStoreRestoresTheBlock : Prop :=
  ∀ x s w, s.wf → (∀ r : Reg, r ≤ x → (s.effAddr r.val).toNat < s.cfg.memSize) →
    ∃ t u, exec (.storeRegs x) s = .next t ∧ exec (.loadRegs x) { t with v := w } = .next u ∧
      ∀ r : Reg, r ≤ x → u.getV r = s.getV r

/-! ### Display (44_display.md) -/

/-- R101: `00E0` turns every pixel off and does not write VF. Every x is the spec's own decision D5. -/
def Obligations.ClsTurnsEveryPixelOff : Prop :=
  DecodesRow 0xF0FF#16 0x00E0#16 (fun w => .cls (fieldX w)) ∧
  ∀ x s, ∃ t, exec (.cls x) s = .next t ∧ t.display.length = s.cfg.dispBytes ∧ (∀ b ∈ t.display, b = 0x00) ∧
    (∀ px py, px < s.cfg.dispW → py < s.cfg.dispH → s.cfg.wf → t.pixel px py = false) ∧ OnlyChanges [.display] s t

/-- `Dxyn` pixel by pixel, in both modes and for every height: each sprite row flips the screen pixels it covers, and VF is 1
exactly when some row turned a pixel off (44_display.md R102 to R107, 10_state.md R23). Operands first and VF last are the
spec's own decision D18. -/
def Obligations.DrwFlipsThePixelsTheSpriteCovers : Prop :=
  ∀ x y n s, s.wf → ¬(s.cfg.drawWrap = true ∧ 2 * s.cfg.dispW ≤ (s.getV x).toNat) →
    ¬(0 < n.val ∧ 256 ≤ (s.getV y).toNat + n.val - 1 ∧ (s.cfg.drawWrap = false ∨ 256 % s.cfg.dispH ≠ 0)) →
    ∃ t, exec (.drw x y n) s = .next t ∧
      (∀ px py, px < s.cfg.dispW → py < s.cfg.dispH →
        (t.pixel px py = true ↔ s.flipped (s.getV x).toNat (s.getV y).toNat px py n.val)) ∧
      (s.collides (s.getV x).toNat (s.getV y).toNat n.val → t.getV .vf = 0x01) ∧
      (¬s.collides (s.getV x).toNat (s.getV y).toNat n.val → t.getV .vf = 0x00) ∧
      (∀ r, r ≠ .vf → t.getV r = s.getV r) ∧ OnlyChanges [.v, .display] s t

/-- R108: `Dxyn` raises `Unspecified` before any write, exactly in the two cases. Both cases are the spec's own decisions
D16 and D17 (log 8). -/
def Obligations.DrwStopsExactlyWhereUnspecified : Prop :=
  DecodesRow 0xF000#16 0xD000#16 (fun w => .drw (fieldX w) (fieldY w) (fieldN w)) ∧
  ∀ x y n s,
    (s.cfg.drawWrap = true ∧ 2 * s.cfg.dispW ≤ (s.getV x).toNat →
      ∃ r, exec (.drw x y n) s = .fault (.unspecified r s)) ∧
    (0 < n.val ∧ 256 ≤ (s.getV y).toNat + n.val - 1 ∧ (s.cfg.drawWrap = false ∨ 256 % s.cfg.dispH ≠ 0) →
      ∃ r, exec (.drw x y n) s = .fault (.unspecified r s)) ∧
    (∀ f, exec (.drw x y n) s = .fault f →
      (s.cfg.drawWrap = true ∧ 2 * s.cfg.dispW ≤ (s.getV x).toNat) ∨
      (0 < n.val ∧ 256 ≤ (s.getV y).toNat + n.val - 1 ∧ (s.cfg.drawWrap = false ∨ 256 % s.cfg.dispH ≠ 0)))

/-! ### Timers (45_timers.md) -/

/-- R112: a tick counts each timer down unless it is zero, and writes nothing else. That a timer at zero stays there is the
spec's own decision D2. -/
def Obligations.TimerTickCountsDownToZero : Prop :=
  ∀ s : State, s.paused = false → s.stopped = false → ∃ t, applyEvent .timerTick s = .next t ∧
    t.dt.toNat = s.dt.toNat - 1 ∧ t.st.toNat = s.st.toNat - 1 ∧ OnlyChanges [.dt, .st] s t

/-- R113, R114: `Fx07` reads DT and `Fx15` writes it. -/
def Obligations.DelayTimerIsReadAndWritten : Prop :=
  DecodesRow 0xF0FF#16 0xF007#16 (fun w => .ldVxDt (fieldX w)) ∧
  DecodesRow 0xF0FF#16 0xF015#16 (fun w => .ldDtVx (fieldX w)) ∧
  ∀ x s,
    (∃ t, exec (.ldVxDt x) s = .next t ∧ t.getV x = s.dt ∧ (∀ r, r ≠ x → t.getV r = s.getV r) ∧ OnlyChanges [.v] s t) ∧
    (∃ t, exec (.ldDtVx x) s = .next t ∧ t.dt = s.getV x ∧ OnlyChanges [.dt] s t)

/-- R115: `Fx18` writes ST only with a non-zero value. -/
def Obligations.SoundTimerTakesNonZeroValuesOnly : Prop :=
  DecodesRow 0xF0FF#16 0xF018#16 (fun w => .ldStVx (fieldX w)) ∧
  ∀ x s, ∃ t, exec (.ldStVx x) s = .next t ∧ t.st = (if s.getV x = 0x00 then s.st else s.getV x) ∧ OnlyChanges [.st] s t

/-! ### Keys (46_keys.md) -/

/-- R117, R118: `Ex9E` and `ExA1` skip when key Vx is, or is not, pressed, and raise `Unspecified` when Vx >= 16. The stop
is the spec's own decision D14 (log 8). -/
def Obligations.KeySkipsTestTheCurrentKey : Prop :=
  DecodesRow 0xF0FF#16 0xE09E#16 (fun w => .skp (fieldX w)) ∧
  DecodesRow 0xF0FF#16 0xE0A1#16 (fun w => .sknp (fieldX w)) ∧
  ∀ x s,
    (∀ k : Key, (s.getV x).toNat = k.val →
      (∃ t, exec (.skp x) s = .next t ∧ t.pc = (if s.keys[k] = true then s.pc + 2 else s.pc) ∧ OnlyChanges [.pc] s t) ∧
      (∃ t, exec (.sknp x) s = .next t ∧ t.pc = (if s.keys[k] = true then s.pc else s.pc + 2) ∧ OnlyChanges [.pc] s t)) ∧
    (16 ≤ (s.getV x).toNat → exec (.skp x) s = .fault (.unspecified .skpKeyOutOfRange s) ∧
      exec (.sknp x) s = .fault (.unspecified .sknpKeyOutOfRange s))

/-- R119: `Fx0A` snapshots the keys and rewinds PC to MAR until a key goes down, and then stores the lowest such key. The
lowest key is the spec's own decision D15, and the rewind at the first encounter its derivation. -/
def Obligations.KeyWaitStoresTheLowestNewKey : Prop :=
  DecodesRow 0xF0FF#16 0xF00A#16 (fun w => .ldVxK (fieldX w)) ∧
  ∀ x s, ∃ t, exec (.ldVxK x) s = .next t ∧
    (s.watching = false → t.kprev = s.keys ∧ t.watching = true ∧ t.pc = s.mar ∧ OnlyChanges [.pc, .wait] s t) ∧
    (s.watching = true → (∀ k : Key, s.keys[k] = true → s.kprev[k] = true) →
      t.kprev = s.keys ∧ t.watching = true ∧ t.pc = s.mar ∧ OnlyChanges [.pc, .wait] s t) ∧
    (s.watching = true → ∀ k : Key, s.keys[k] = true → s.kprev[k] = false →
      (∀ j : Key, j < k → s.keys[j] = true → s.kprev[j] = true) →
      (t.getV x).toNat = k.val ∧ t.watching = false ∧ t.kprev = s.kprev ∧ (∀ r, r ≠ x → t.getV r = s.getV r) ∧
        OnlyChanges [.v, .wait] s t)

/-- The keys reach the core through `Ex9E`, `ExA1` and `Fx0A` alone: any other instruction does the same whatever the keys
are (10_state.md R19). -/
def Obligations.OnlyKeyInstructionsReadTheKeys : Prop :=
  ∀ (i : Instr) (s : State) (ks : Vector Bool 16), (∀ x, i ≠ .skp x ∧ i ≠ .sknp x ∧ i ≠ .ldVxK x) →
    (∀ t, exec i s = .next t → exec i { s with keys := ks } = .next { t with keys := ks }) ∧
    (∀ f, exec i s = .fault f → ∃ g, exec i { s with keys := ks } = .fault g)

/-! ### The step (40_step_and_dispatch.md) -/

/-- R64: an ignored word writes nothing; at the end of its step PC, MAR and cycle are as the fetch and the count leave them.
The premise on the schedule is the model's own (log 9). -/
def Obligations.IgnoredWordsChangeNothing : Prop :=
  (∀ w s, ∃ t, exec (.ignored w) s = .next t ∧ OnlyChanges [] s t) ∧
  ∀ w s, s.nextEvent = .coreStep → s.paused = false → s.stopped = false → decodeWord (s.memRead16 s.pc) = .ignored w →
    ∃ t, step s = .next t ∧ t.pc = s.pc + 2 ∧ t.mar = s.pc ∧ t.cycle = s.cycle + 1 ∧ t.schedule = s.schedule.tail ∧
      OnlyChanges [.pc, .mar, .cycle, .schedule] s t

/-- R61: the step captures the fetch address, writes MAR, reads the word, advances PC by 2, executes and counts. That
the step is the next event, and is taken off the schedule, is the model's own (log 9). -/
def Obligations.StepRunsTheFetchedInstruction : Prop :=
  ∀ s : State, s.nextEvent = .coreStep → s.paused = false → s.stopped = false →
    (∀ t, exec (decodeWord (s.memRead16 s.pc)) { s with mar := s.pc, pc := s.pc + 2, schedule := s.schedule.tail } = .next t →
      step s = .next { t with cycle := t.cycle + 1 }) ∧
    (∀ f, exec (decodeWord (s.memRead16 s.pc)) { s with mar := s.pc, pc := s.pc + 2, schedule := s.schedule.tail } = .fault f →
      step s = .fault f)

/-- The word stored by `withFetchWord` is the instruction that the very next step runs: when PC's word is inside memory and the
word decodes to i, the step is i's meaning after the fetch, counted, and the order of events after it is as it was
(40_step_and_dispatch.md R61; logs 9, 10). -/
def Obligations.WithFetchWordRunsThatWord : Prop :=
  ∀ (s : State) (w : Nat), s.wf → w < 2 ^ 16 → s.pc.toNat + 1 < s.cfg.memSize → ∃ i, decodeTableWord 16 w = some i ∧
    (s.withFetchWord 16 w).wf ∧
    step (s.withFetchWord 16 w) = countStep (exec i (s.withFetchWord 16 w).advance.fetched) ∧
    (s.withFetchWord 16 w).advance.schedule = s.schedule

/-- R33: the word read is big-endian, and 0xFFFF unless both bytes are in range. That both bytes must be in range is the
spec's own decision D4. -/
def Obligations.WordReadIsBigEndian : Prop :=
  ∀ (s : State) (a : Word),
    (a.toNat + 1 < s.cfg.memSize → (s.memRead16 a).toNat = (s.byteAt a.toNat).toNat * 2 ^ 8 + (s.byteAt (a.toNat + 1)).toNat) ∧
    (s.cfg.memSize ≤ a.toNat + 1 → s.memRead16 a = 0xFFFF) ∧ (s.wf → s.memRead16 0xFFFF = 0xFFFF)

/-- R62: a fetch at or beyond the end of memory reads 0xFFFF, which is ignored, so PC goes on by 2, mod 2^16. The spec marks
R62 as derived; the premise on the schedule is the model's own (log 9). -/
def Obligations.FetchBeyondMemoryIsIgnored : Prop :=
  ∀ s : State, s.nextEvent = .coreStep → s.paused = false → s.stopped = false → s.cfg.memSize ≤ s.pc.toNat + 1 →
    s.memRead16 s.pc = 0xFFFF ∧ ∃ t, step s = .next t ∧ t.pc.toNat = (s.pc.toNat + 2) % 2 ^ 16 ∧ t.mar = s.pc ∧
      t.cycle = s.cycle + 1 ∧ OnlyChanges [.pc, .mar, .cycle, .schedule] s t

/-- A run ends at a halted state, whatever the order of events; and the machine goes on there: every event leaves it halted, and the
core's step executes the jump to itself and changes only MAR, cycle and the schedule (70_reset_and_hazards.md R146). What
halted means, and where a run ends, is the spec's own decision D39; the schedule is the model's own (log 9). -/
def Obligations.HaltedStateStaysHalted : Prop :=
  ∀ (s : State) (h : Word), s.haltedAt h →
    (∀ (σ : Nat → Event) t, RunEnds σ s t ↔ t = s) ∧ (∀ e, ∃ t, applyEvent e s = .next t ∧ t.haltedAt h) ∧
    (s.nextEvent = .coreStep → s.paused = false → s.stopped = false →
      ∃ t, step s = .next t ∧ t.haltedAt h ∧ t.mar = h ∧ t.cycle = s.cycle + 1 ∧ OnlyChanges [.mar, .cycle, .schedule] s t)

/-- A byte stored over the next instruction is what the next step fetches: after `Fx55` and `Fx33`
(20_memory.md R47, 70_reset_and_hazards.md R148). The spec marks both rules as derived; the premise on the schedule is the
model's own (log 9). -/
def Obligations.StoresAreFetchedByTheNextStep : Prop :=
  ∀ (x : Reg) (s : State), s.wf → s.nextEvent = .coreStep → s.paused = false → s.stopped = false →
    (s.pc + 2).toNat + 1 < s.cfg.memSize →
    (∀ k : Nat, k < x.val → decodeWord (s.memRead16 s.pc) = .storeRegs x → s.effAddr k = s.pc + 2 →
      ∃ t, step s = .next t ∧ t.pc = s.pc + 2 ∧ t.memRead16 t.pc = joinBytes (s.getV (regOf k)) (s.getV (regOf (k + 1)))) ∧
    (decodeWord (s.memRead16 s.pc) = .ldB x → s.effAddr 0 = s.pc + 2 →
      ∃ t, step s = .next t ∧ t.pc = s.pc + 2 ∧
        (t.memRead16 t.pc).toNat = (s.getV x).toNat / 100 * 256 + (s.getV x).toNat / 10 % 10)

/-! ### The whole machine (10_state.md, 60_exceptions.md) -/

/-- No instruction changes a part of the state that the spec does not give it to change: only the fetch writes MAR, only the
host writes K and the pause flag, no instruction counts the step or changes the configuration, and so on
(10_state.md R12 to R16, R19, R20, R24, R26, 20_memory.md R42). The count of draws is the model's own (log 7). That `Fx55`
and `Fx65` leave I unchanged is the spec's own decision D11 and that `Fx1E` writes no register its own decision D12, both
erring toward proving, and that an unknown family-8 word changes nothing its own decision D7 (log 13). -/
def Obligations.InstructionsChangeOnlyTheirOwnParts : Prop :=
  ∀ i s t, exec i s = .next t → OnlyChanges (mayChange i) s t

/-- R9: no other instruction writes VF except as a named destination. For the logic operations and `Fx1E` it rests on the
spec's own decisions D10 and D12. -/
def Obligations.VfIsWrittenOnlyByItsWriters : Prop :=
  ∀ i s t, exec i s = .next t → ¬writesFlag i → ¬writesVfAsDestination i → t.getV .vf = s.getV .vf

/-- A flag write stores 0x00 or 0x01, but for a shift whose destination is VF (10_state.md R10). The exception is the spec's
own decision D9. -/
def Obligations.FlagsAreZeroOrOne : Prop :=
  ∀ i s t, exec i s = .next t → writesFlag i → ¬shiftsVf i → t.getV .vf = 0x00 ∨ t.getV .vf = 0x01

/-- The ways in which an instruction writes PC, and no others (10_state.md R12): a skip, a jump, a call, a return, a wait.
That PC arithmetic is mod 2^16 is the spec's own decision D3. -/
def Obligations.PcIsWrittenInTheListedWaysOnly : Prop :=
  ∀ i s t, exec i s = .next t → t.pc ≠ s.pc →
    ((∃ x kk, i = .seByte x kk ∨ i = .sneByte x kk) ∧ t.pc = s.pc + 2) ∨
    ((∃ x y n, i = .seReg x y n ∨ i = .sneReg x y n) ∧ t.pc = s.pc + 2) ∨
    ((∃ x, i = .skp x ∨ i = .sknp x) ∧ t.pc = s.pc + 2) ∨
    (∃ nnn, i = .jp nnn ∧ t.pc.toNat = nnn.toNat) ∨
    (∃ nnn, i = .jpV0 nnn ∧ t.pc.toNat = nnn.toNat + (s.getV 0).toNat) ∨
    (∃ nnn, i = .call nnn ∧ 0x200 ≤ nnn.toNat ∧ t.pc.toNat = nnn.toNat) ∨
    (∃ x, i = .ret x) ∨ ((∃ x, i = .ldVxK x) ∧ t.pc = s.mar)

/-- R124: the instructions stop at the five listed sites and nowhere else, never with a refusal; at the stop the fetch has
set MAR and advanced PC, and nothing else is written; no other event stops. The sites are the spec's own decisions D13, D14,
D16 and D17 (log 8); that the event is off the schedule is the model's own (log 9). -/
def Obligations.UnspecifiedStopsAreTheListedOnes : Prop :=
  (∀ i s, (∃ t, exec i s = .next t ∧ ∀ r, ¬stopsFor i s r) ∨
    (∃ r, exec i s = .fault (.unspecified r s) ∧ stopsFor i s r)) ∧
  ∀ s f, step s = .fault f → s.nextEvent = .coreStep ∧ ∃ r u, f = .unspecified r u ∧ u.mar = s.pc ∧ u.pc = s.pc + 2 ∧
    OnlyChanges [.pc, .mar, .schedule] s u

/-- An invariant that every step keeps, whichever event it is: a legal configuration, memory in canonical form and inside
MemSize, SP at most StackDepth, and a display of exactly DispBytes bytes (10_state.md R17, R18, R22, R23). The canonical
form of memory is the model's own (log 14), and so is the schedule (log 9). -/
def Obligations.StepKeepsTheStateWellFormed : Prop :=
  ∀ s t : State, s.wf → step s = .next t → t.wf

/-- R120: while `watching`, PC = MAR and the word there is the `Fx0A` just executed. Every step keeps it, whichever event it is.
The spec marks R120 as derived. -/
def Obligations.StepKeepsTheKeyWaitOnItsInstruction : Prop :=
  ∀ s t : State, s.waitInv → step s = .next t → t.waitInv

/-- The state after reset meets both invariants (10_state.md R31, 46_keys.md R120). The key-wait half holds because
`watching` is false at reset, the spec's own decision D21 (log 12). The legal configurations are the spec's own decision
D28, and the canonical form of memory is the model's own (log 14). -/
def Obligations.ResetMeetsTheInvariants : Prop := State.reset.wf ∧ State.reset.waitInv

/-! ### Memory and stack (20_memory.md) -/

/-- R50: a byte or word written in range is what the next read of it returns; an out-of-range read returns the sentinel; and a
write outside memory changes nothing. That a word needs both bytes in range is the spec's own decision D4. -/
def Obligations.MemoryRoundTrip : Prop :=
  ∀ (s : State) (a : Word) (b : Byte) (w : Word), s.wf →
    (a.toNat < s.cfg.memSize → (s.memWrite8 a b).memRead8 a = b) ∧
    (∀ c, c ≠ a → (s.memWrite8 a b).memRead8 c = s.memRead8 c) ∧
    (a.toNat + 1 < s.cfg.memSize → (s.memWrite16 a w).memRead16 a = w) ∧
    (∀ c, c ≠ a → c ≠ a + 1 → (s.memWrite16 a w).memRead8 c = s.memRead8 c) ∧
    (s.cfg.memSize ≤ a.toNat → s.memRead8 a = 0xFF ∧ s.memWrite8 a b = s) ∧
    (s.cfg.memSize ≤ a.toNat + 1 → s.memRead16 a = 0xFFFF ∧ s.memWrite16 a w = s)

/-- R38, R39: a push stores at SP unless the stack is full; a pop returns the top, or 0x00FF and SP 0 when it is empty. The
value 0x00FF is the spec's own decision D34. -/
def Obligations.PushAndPop : Prop :=
  ∀ (s : State) (w : Word), s.wf →
    (s.sp < s.cfg.stackDepth → (s.push w).sp = s.sp + 1 ∧ (s.push w).stack[s.sp]? = some w ∧
      ∀ j, j ≠ s.sp → (s.push w).stack[j]? = s.stack[j]?) ∧
    (s.sp = s.cfg.stackDepth → s.push w = s) ∧
    (0 < s.sp → some s.popValue = s.stack[s.sp - 1]? ∧ s.pop.sp + 1 = s.sp ∧ s.pop.stack = s.stack) ∧
    (s.sp = 0 → s.popValue = 0x00FF ∧ s.pop = s) ∧ OnlyChanges [.stack] s (s.push w) ∧ OnlyChanges [.stack] s s.pop

/-! ### Reset and the host (70_reset_and_hazards.md, 60_exceptions.md) -/

/-- R142: `LoadProgram` resets the core and stores the program at 0x200; K and paused are not changed. I, MAR, the timers,
`watching`, `Kprev` and K follow the spec's own decisions D20 and D21. -/
def Obligations.LoadProgramResetsTheCore : Prop :=
  ∀ (s : State) (p : List Byte), p.length + 0x200 ≤ s.cfg.memSize →
    ∃ t, loadProgram p s = .next t ∧
      (∀ a : Word, a.toNat < s.cfg.memSize → t.memRead8 a =
        if 0x200 ≤ a.toNat ∧ a.toNat < 0x200 + p.length then p.getD (a.toNat - 0x200) 0x00
        else if h : a.toNat < 80 then s.cfg.fontTable[a.toNat] else 0x00) ∧
      t.display = List.replicate s.cfg.dispBytes 0x00 ∧ (∀ r, t.getV r = 0x00) ∧ t.i = 0x0000 ∧ t.mar = 0x0000 ∧
      t.dt = s.cfg.dt0 ∧ t.st = s.cfg.st0 ∧ t.stack = List.replicate s.cfg.stackDepth 0x0000 ∧ t.sp = 0 ∧
      t.watching = false ∧ (∀ k : Key, t.kprev[k] = false) ∧ t.pc = 0x0200 ∧ t.cycle = 0 ∧
      t.keys = s.keys ∧ t.paused = s.paused ∧ t.cfg = s.cfg

/-- R143: a program longer than MemSize - 0x200 is refused, and there is no launch. The refusal is the spec's own decision D22. -/
def Obligations.TooLongProgramIsRefused : Prop :=
  (∀ (s : State) (p : List Byte), s.wf → s.cfg.memSize - 0x200 < p.length → loadProgram p s = .refused .programTooLong) ∧
  ∀ (c : Config) (b : Bool) (p : List Byte), c.wf → c.memSize - 0x200 < p.length → launch c b p = .refused .programTooLong

/-- Reset is the launch of this hardware's configuration with no program loaded, not paused (the model's choice, log 5); a
configuration outside the legal ranges is refused (10_state.md R31, 00_scope.md R5). DT0 and ST0 are the model's choice (log
4), the font is presumed (log 6), I, MAR, `watching`, `Kprev` and K are the spec's own decisions D20, D21 and D37 (log 12),
and the legal ranges its own decision D28. That nothing is known of the order of events from reset on is the model's form of
R126 (log 9). -/
def Obligations.ResetIsTheLaunchState : Prop :=
  launch Config.hardware false [] = .next State.reset ∧
  (∀ c b p, ¬Config.wf c → launch c b p = .refused .illegalConfiguration) ∧
  State.reset.schedule = .free 0 ∧ State.reset.pc = 0x0200 ∧ State.reset.cycle = 0 ∧ State.reset.sp = 0 ∧ (∀ r, State.reset.getV r = 0x00) ∧
  (∀ a : Word, 80 ≤ a.toNat → a.toNat < 4096 → State.reset.memRead8 a = 0x00)

/-- R136: pause, resume and stop; while paused or stopped no step and no tick happens; and whichever event comes next, it happens
(60_exceptions.md R126, R138). Standing still is the model's form (log 5), the schedule too (log 9), and no tick while paused
the spec's own decision D36. -/
def Obligations.PauseResumeAndStop : Prop :=
  ∀ s : State,
    (∃ t, applyEvent .pause s = .next t ∧ t.paused = true ∧ OnlyChanges [.paused] s t) ∧
    (∃ t, applyEvent .resume s = .next t ∧ t.paused = false ∧ OnlyChanges [.paused] s t) ∧
    (∃ t, applyEvent .stop s = .next t ∧ t.stopped = true ∧ OnlyChanges [.stopped] s t) ∧
    (s.paused = true ∨ s.stopped = true → applyEvent .coreStep s = .next s ∧ applyEvent .timerTick s = .next s ∧
      (s.nextEvent = .coreStep ∨ s.nextEvent = .timerTick → step s = .next s.advance)) ∧
    ∀ (e : Event) (σ : Schedule), step (s.setSchedule (.cons e σ)) = applyEvent e (s.setSchedule σ)

/-- The host sets one key, also while paused, and nothing else; a key that goes down while the core waits for one, whose number is
the lowest of those that did, ends the wait at the next step (60_exceptions.md R134, 46_keys.md R119). When host actions
happen is the spec's own decision D25. -/
def Obligations.SetKeyStateSetsOneKey : Prop :=
  ∀ (s : State) (k : Key) (b : Bool), ∃ t, applyEvent (.setKeyState k b) s = .next t ∧ t.keys[k] = b ∧
    (∀ j : Key, j ≠ k → t.keys[j] = s.keys[j]) ∧ OnlyChanges [.keys] s t ∧
    ∀ x, s.watching = true → s.kprev[k] = false → b = true → (∀ j : Key, j ≠ k → s.keys[j] = true → s.kprev[j] = true) →
      ∃ u, exec (.ldVxK x) t = .next u ∧ (u.getV x).toNat = k.val ∧ u.watching = false
end

