-- ==== Sys2Proof/Laws/Decode.lean ====
section
/-! SUPPORT. The fields of a word as numbers, the fields of an encoded word, the masks of 30_encoding.md R55, and the word
read back from its fields. -/

namespace Sys2Proof

/-! ### Fields as numbers (30_encoding.md R52) -/

theorem fieldOp_toNat (w : Word) : (fieldOp w).toNat = w.toNat / 0x1000 := by
  have := w.isLt
  simp only [fieldOp, BitVec.extractLsb'_toNat, Nat.shiftRight_eq_div_pow]; omega

theorem fieldX_val (w : Word) : (fieldX w).val = w.toNat / 0x100 % 16 := by
  simp only [fieldX, BitVec.val_toFin, BitVec.extractLsb'_toNat, Nat.shiftRight_eq_div_pow]

theorem fieldY_val (w : Word) : (fieldY w).val = w.toNat / 0x10 % 16 := by
  simp only [fieldY, BitVec.val_toFin, BitVec.extractLsb'_toNat, Nat.shiftRight_eq_div_pow]

theorem fieldN_val (w : Word) : (fieldN w).val = w.toNat % 16 := by
  simp only [fieldN, BitVec.val_toFin, BitVec.extractLsb'_toNat, Nat.shiftRight_eq_div_pow, Nat.pow_zero, Nat.div_one]

theorem fieldKK_toNat (w : Word) : (fieldKK w).toNat = w.toNat % 0x100 := by
  simp only [fieldKK, BitVec.extractLsb'_toNat, Nat.shiftRight_eq_div_pow, Nat.pow_zero, Nat.div_one]

theorem fieldNNN_toNat (w : Word) : (fieldNNN w).toNat = w.toNat % 0x1000 := by
  simp only [fieldNNN, BitVec.extractLsb'_toNat, Nat.shiftRight_eq_div_pow, Nat.pow_zero, Nat.div_one]

/-! ### Encoded words as numbers -/

theorem wordNNN_toNat {op : Nat} (h : op < 16) (nnn : Addr12) :
    (wordNNN op nnn).toNat = op * 0x1000 + nnn.toNat := by
  have := nnn.isLt
  simp only [wordNNN, BitVec.toNat_ofNat]; omega

theorem wordXKK_toNat {op : Nat} (h : op < 16) (x : Reg) (kk : Byte) :
    (wordXKK op x kk).toNat = op * 0x1000 + x.val * 0x100 + kk.toNat := by
  have := kk.isLt
  have := x.isLt
  simp only [wordXKK, BitVec.toNat_ofNat]; omega

theorem wordXYN_toNat {op : Nat} (h : op < 16) (x y : Reg) (n : Nibble) :
    (wordXYN op x y n).toNat = op * 0x1000 + x.val * 0x100 + y.val * 0x10 + n.val := by
  have := n.isLt
  have := y.isLt
  have := x.isLt
  simp only [wordXYN, BitVec.toNat_ofNat]; omega

/-! ### Masks as numbers (30_encoding.md R55) -/

/-- The bits of a word that one of its three masks keeps. -/
theorem and_mask_F000 (w : Word) : (w &&& 0xF000#16).toNat = w.toNat / 0x1000 * 0x1000 := by
  have hw := w.isLt
  have h : w &&& 0xF000#16 = (w >>> 12) <<< 12 := by
    apply BitVec.eq_of_getLsbD_eq; intro i hi; interval_cases i <;> simp
  rw [h]
  simp only [BitVec.toNat_shiftLeft, BitVec.toNat_ushiftRight, Nat.shiftLeft_eq, Nat.shiftRight_eq_div_pow]; omega

theorem and_mask_F00F (w : Word) : (w &&& 0xF00F#16).toNat = w.toNat / 0x1000 * 0x1000 + w.toNat % 0x10 := by
  have hw := w.isLt
  have h : w &&& 0xF00F#16 = ((w >>> 12) <<< 12) ||| (w.extractLsb' 0 4).setWidth 16 := by
    apply BitVec.eq_of_getLsbD_eq; intro i hi; interval_cases i <;> simp
  have h4 := Nat.two_pow_add_eq_or_of_lt (i := 4) (b := w.toNat % 16) (by omega) (w.toNat / 0x1000 * 0x100)
  rw [h]
  simp only [BitVec.toNat_or, BitVec.toNat_shiftLeft, BitVec.toNat_ushiftRight, Nat.shiftLeft_eq, BitVec.toNat_setWidth,
    BitVec.extractLsb'_toNat, Nat.shiftRight_eq_div_pow, Nat.pow_zero, Nat.div_one]
  rw [Nat.mod_eq_of_lt (a := w.toNat / 2 ^ 12 * 2 ^ 12) (by omega), Nat.mod_eq_of_lt (a := w.toNat % 2 ^ 4) (by omega),
    show w.toNat / 2 ^ 12 * 2 ^ 12 = 2 ^ 4 * (w.toNat / 0x1000 * 0x100) by omega, show w.toNat % 2 ^ 4 = w.toNat % 16 from rfl, ← h4]
  omega

theorem and_mask_F0FF (w : Word) : (w &&& 0xF0FF#16).toNat = w.toNat / 0x1000 * 0x1000 + w.toNat % 0x100 := by
  have hw := w.isLt
  have h : w &&& 0xF0FF#16 = ((w >>> 12) <<< 12) ||| (w.extractLsb' 0 8).setWidth 16 := by
    apply BitVec.eq_of_getLsbD_eq; intro i hi; interval_cases i <;> simp
  have h8 := Nat.two_pow_add_eq_or_of_lt (i := 8) (b := w.toNat % 256) (by omega) (w.toNat / 0x1000 * 0x10)
  rw [h]
  simp only [BitVec.toNat_or, BitVec.toNat_shiftLeft, BitVec.toNat_ushiftRight, Nat.shiftLeft_eq, BitVec.toNat_setWidth,
    BitVec.extractLsb'_toNat, Nat.shiftRight_eq_div_pow, Nat.pow_zero, Nat.div_one]
  rw [Nat.mod_eq_of_lt (a := w.toNat / 2 ^ 12 * 2 ^ 12) (by omega), Nat.mod_eq_of_lt (a := w.toNat % 2 ^ 8) (by omega),
    show w.toNat / 2 ^ 12 * 2 ^ 12 = 2 ^ 8 * (w.toNat / 0x1000 * 0x10) by omega, show w.toNat % 2 ^ 8 = w.toNat % 256 from rfl, ← h8]
  omega

/-! ### A word that selects a row has the row's fields -/

variable {w v : Word}

theorem toNat_of_mask_F000 (h : w &&& 0xF000#16 = v) : w.toNat / 0x1000 * 0x1000 = v.toNat := by
  rw [← h, and_mask_F000]

theorem toNat_of_mask_F00F (h : w &&& 0xF00F#16 = v) : w.toNat / 0x1000 * 0x1000 + w.toNat % 0x10 = v.toNat := by
  rw [← h, and_mask_F00F]

theorem toNat_of_mask_F0FF (h : w &&& 0xF0FF#16 = v) : w.toNat / 0x1000 * 0x1000 + w.toNat % 0x100 = v.toNat := by
  rw [← h, and_mask_F0FF]

theorem fieldOp_eq {n : Nat} (h : w.toNat / 0x1000 = n) : fieldOp w = BitVec.ofNat 4 n := by
  apply BitVec.eq_of_toNat_eq
  have := w.isLt
  rw [fieldOp_toNat, BitVec.toNat_ofNat]; omega

theorem fieldKK_eq {n : Nat} (h : w.toNat % 0x100 = n) : fieldKK w = BitVec.ofNat 8 n := by
  apply BitVec.eq_of_toNat_eq
  rw [fieldKK_toNat, BitVec.toNat_ofNat]; omega

theorem lowNibble_eq {n : Nat} (h : w.toNat % 0x10 = n) : w.extractLsb' 0 4 = BitVec.ofNat 4 n := by
  apply BitVec.eq_of_toNat_eq
  rw [BitVec.extractLsb'_toNat, BitVec.toNat_ofNat, Nat.shiftRight_zero]; omega

/-! ### The fields of an encoded word -/

section
variable {op : Nat} (h : op < 16) (x y : Reg) (kk : Byte) (n : Nibble) (nnn : Addr12)
include h

theorem fieldOp_wordNNN : fieldOp (wordNNN op nnn) = BitVec.ofNat 4 op :=
  fieldOp_eq (by have := nnn.isLt; rw [wordNNN_toNat h]; omega)

theorem fieldNNN_wordNNN : fieldNNN (wordNNN op nnn) = nnn := by
  apply BitVec.eq_of_toNat_eq
  have := nnn.isLt
  rw [fieldNNN_toNat, wordNNN_toNat h]; omega

theorem fieldOp_wordXKK : fieldOp (wordXKK op x kk) = BitVec.ofNat 4 op :=
  fieldOp_eq (by have := kk.isLt; rw [wordXKK_toNat h]; omega)

theorem fieldX_wordXKK : fieldX (wordXKK op x kk) = x := by
  have := kk.isLt
  apply Fin.ext; rw [fieldX_val, wordXKK_toNat h]; omega

theorem fieldKK_wordXKK : fieldKK (wordXKK op x kk) = kk := by
  apply BitVec.eq_of_toNat_eq
  have := kk.isLt
  rw [fieldKK_toNat, wordXKK_toNat h]; omega

theorem fieldOp_wordXYN : fieldOp (wordXYN op x y n) = BitVec.ofNat 4 op :=
  fieldOp_eq (by rw [wordXYN_toNat h]; omega)

theorem fieldX_wordXYN : fieldX (wordXYN op x y n) = x := by
  apply Fin.ext; rw [fieldX_val, wordXYN_toNat h]; omega

theorem fieldY_wordXYN : fieldY (wordXYN op x y n) = y := by
  apply Fin.ext; rw [fieldY_val, wordXYN_toNat h]; omega

theorem fieldN_wordXYN : fieldN (wordXYN op x y n) = n := by
  apply Fin.ext; rw [fieldN_val, wordXYN_toNat h]; omega

theorem lowNibble_wordXYN : (wordXYN op x y n).extractLsb' 0 4 = BitVec.ofNat 4 n.val :=
  lowNibble_eq (by rw [wordXYN_toNat h]; omega)

end

/-! ### A word put together again from its fields -/

theorem wordNNN_fields {op : Nat} (h : w.toNat / 0x1000 = op) : wordNNN op (fieldNNN w) = w := by
  have := w.isLt
  apply BitVec.eq_of_toNat_eq
  rw [wordNNN_toNat (by omega), fieldNNN_toNat]; omega

theorem wordXKK_fields {op : Nat} {kk : Byte} (h : w.toNat / 0x1000 = op) (hk : fieldKK w = kk) :
    wordXKK op (fieldX w) kk = w := by
  have := w.isLt
  apply BitVec.eq_of_toNat_eq
  rw [wordXKK_toNat (by omega), ← hk, fieldKK_toNat, fieldX_val]; omega

theorem wordXYN_fields {op : Nat} {n : Nibble} (h : w.toNat / 0x1000 = op) (hn : fieldN w = n) :
    wordXYN op (fieldX w) (fieldY w) n = w := by
  have := w.isLt
  apply BitVec.eq_of_toNat_eq
  rw [wordXYN_toNat (by omega), ← hn, fieldN_val, fieldX_val, fieldY_val]; omega

end Sys2Proof
end

