-- ==== Sys2Proof/Laws/Memory.lean ====
section
/-! SUPPORT. The laws of the cell list: a read after a write, the canonical form, and that equal memories are equal data. -/

namespace Sys2Proof.Machine

variable {font : Vector Byte 80} {m : List Host.Cell} {a b : Nat} {v : Byte}

/-- An address below every listed one holds its reset contents. -/
theorem Memory.read_of_lt (h : ∀ p ∈ m, a < p.1) : Memory.read font m a = Memory.unlisted font a := by
  induction m with
  | nil => rfl
  | cons p m ih =>
    obtain ⟨k, c⟩ := p
    have hk : a < k := h _ List.mem_cons_self
    simp only [Memory.read, if_neg (Nat.ne_of_lt hk)]
    exact ih fun q hq => h q (List.mem_cons_of_mem _ hq)

/-- A write lists no cell but the old ones and its own. -/
theorem Memory.mem_write {p : Host.Cell} (h : p ∈ Memory.write font m a v) :
    p ∈ m ∨ (p = (a, v) ∧ v ≠ Memory.unlisted font a) := by
  induction m with
  | nil =>
    simp only [Memory.write] at h
    split at h <;> simp_all
  | cons q m ih =>
    obtain ⟨k, c⟩ := q
    simp only [Memory.write] at h
    split at h
    · split at h <;> simp_all; tauto
    · split at h
      · split at h <;> simp_all; tauto
      · rcases List.mem_cons.mp h with h | h
        · exact .inl (h ▸ List.mem_cons_self)
        · exact (ih h).imp_left (List.mem_cons_of_mem _)

/-- A write keeps the addresses strictly rising. -/
theorem Memory.write_sorted (h : m.Pairwise fun p q => p.1 < q.1) :
    (Memory.write font m a v).Pairwise fun p q => p.1 < q.1 := by
  induction m with
  | nil => simp only [Memory.write]; split <;> simp
  | cons q m ih =>
    obtain ⟨k, c⟩ := q
    obtain ⟨hk, hm⟩ := List.pairwise_cons.mp h
    simp only [Memory.write]
    split_ifs with hak hv hka hv
    · exact h
    · refine List.pairwise_cons.mpr ⟨fun p hp => ?_, h⟩
      rcases List.mem_cons.mp hp with rfl | hp
      · exact hak
      · exact Nat.lt_trans hak (hk p hp)
    · exact hm
    · subst hka; exact List.pairwise_cons.mpr ⟨hk, hm⟩
    · refine List.pairwise_cons.mpr ⟨fun p hp => ?_, ih hm⟩
      rcases Memory.mem_write hp with hp | ⟨rfl, -⟩
      · exact hk p hp
      · exact Nat.lt_of_le_of_ne (Nat.not_lt.mp hak) (Ne.symm hka)

/-- A write inside memory keeps the canonical form. -/
theorem Memory.write_wf {c : Config} (ha : a < c.memSize) (h : Memory.wf c m) :
    Memory.wf c (Memory.write c.fontTable m a v) := by
  refine ⟨Memory.write_sorted h.1, fun p hp => ?_⟩
  rcases Memory.mem_write hp with hp | ⟨rfl, hv⟩
  · exact h.2 p hp
  · exact ⟨ha, hv⟩

/-- A read after a write: the written byte at its address, the old byte everywhere else. -/
theorem Memory.read_write (h : m.Pairwise fun p q => p.1 < q.1) :
    Memory.read font (Memory.write font m a v) b = if b = a then v else Memory.read font m b := by
  induction m with
  | nil =>
    by_cases hv : v = Memory.unlisted font a <;> by_cases hb : b = a <;> simp [Memory.write, Memory.read, hv, hb]
  | cons q m ih =>
    obtain ⟨k, c⟩ := q
    obtain ⟨hk, hm⟩ := List.pairwise_cons.mp h
    simp only [Memory.write]
    split_ifs with hak hv hb hb hka hv hb hb hb
    · subst hb hv
      refine Memory.read_of_lt fun p hp => ?_
      rcases List.mem_cons.mp hp with rfl | hp
      · exact hak
      · exact Nat.lt_trans hak (hk p hp)
    · rfl
    · simp [Memory.read, hb]
    · simp [Memory.read, hb]
    · subst hb hka hv; exact Memory.read_of_lt hk
    · subst hka; simp [Memory.read, hb]
    · simp [Memory.read, hb]
    · subst hka; simp [Memory.read, hb]
    · subst hb; simp [Memory.read, hka, ih hm]
    · by_cases hbk : b = k <;> simp [Memory.read, hbk, ih hm, hb]

/-- Two memories in canonical form that read alike are the same list. -/
theorem Memory.ext_of_wf {c : Config} {m m' : List Host.Cell} (h : Memory.wf c m) (h' : Memory.wf c m')
    (hr : ∀ x, Memory.read c.fontTable m x = Memory.read c.fontTable m' x) : m = m' := by
  induction m generalizing m' with
  | nil =>
    cases m' with
    | nil => rfl
    | cons q m' =>
      have := hr q.1
      simp only [Memory.read, if_true] at this
      exact absurd this.symm (h'.2 q List.mem_cons_self).2
  | cons p m ih =>
    obtain ⟨hp, hm⟩ := List.pairwise_cons.mp h.1
    cases m' with
    | nil =>
      have := hr p.1
      simp only [Memory.read, if_true] at this
      exact absurd this (h.2 p List.mem_cons_self).2
    | cons q m' =>
      obtain ⟨hq, hm'⟩ := List.pairwise_cons.mp h'.1
      have hpq : p.1 = q.1 := by
        rcases Nat.lt_trichotomy p.1 q.1 with hlt | heq | hgt
        · have := hr p.1
          rw [Memory.read_of_lt (m := q :: m') fun r hr' => by
            rcases List.mem_cons.mp hr' with rfl | hr'
            · exact hlt
            · exact Nat.lt_trans hlt (hq r hr')] at this
          simp only [Memory.read, if_true] at this
          exact absurd this (h.2 p List.mem_cons_self).2
        · exact heq
        · have := hr q.1
          rw [Memory.read_of_lt (m := p :: m) fun r hr' => by
            rcases List.mem_cons.mp hr' with rfl | hr'
            · exact hgt
            · exact Nat.lt_trans hgt (hp r hr')] at this
          simp only [Memory.read, if_true] at this
          exact absurd this.symm (h'.2 q List.mem_cons_self).2
      have hbyte : p.2 = q.2 := by
        have := hr p.1
        simpa [Memory.read, hpq] using this
      have htail : m = m' := by
        refine ih ⟨hm, fun r hr' => h.2 r (List.mem_cons_of_mem _ hr')⟩
          ⟨hm', fun r hr' => h'.2 r (List.mem_cons_of_mem _ hr')⟩ fun x => ?_
        by_cases hx : x = p.1
        · rw [Memory.read_of_lt fun r hr' => hx ▸ hp r hr', Memory.read_of_lt fun r hr' => by
            rw [hx, hpq]; exact hq r hr']
        · have := hr x
          simpa [Memory.read, hx, hpq ▸ hx] using this
      rw [htail, Prod.ext hpq hbyte]

end Sys2Proof.Machine
end

