-- ==== Sys2Proof/Laws/State.lean ====
section
/-! SUPPORT. One lemma for each field after each named update of State, all true by unfolding the update, and what the
accessors read after an update that does not touch what they read. -/

namespace Sys2Proof.Machine

variable (s : State)

/-! ### `setV` -/

@[simp] theorem State.setV_cfg (r : Reg) (b : Byte) : (s.setV r b).cfg = s.cfg := rfl
@[simp] theorem State.setV_v (r : Reg) (b : Byte) : (s.setV r b).v = s.v.set r b := rfl
@[simp] theorem State.setV_pc (r : Reg) (b : Byte) : (s.setV r b).pc = s.pc := rfl
@[simp] theorem State.setV_mar (r : Reg) (b : Byte) : (s.setV r b).mar = s.mar := rfl
@[simp] theorem State.setV_i (r : Reg) (b : Byte) : (s.setV r b).i = s.i := rfl
@[simp] theorem State.setV_dt (r : Reg) (b : Byte) : (s.setV r b).dt = s.dt := rfl
@[simp] theorem State.setV_st (r : Reg) (b : Byte) : (s.setV r b).st = s.st := rfl
@[simp] theorem State.setV_stack (r : Reg) (b : Byte) : (s.setV r b).stack = s.stack := rfl
@[simp] theorem State.setV_sp (r : Reg) (b : Byte) : (s.setV r b).sp = s.sp := rfl
@[simp] theorem State.setV_keys (r : Reg) (b : Byte) : (s.setV r b).keys = s.keys := rfl
@[simp] theorem State.setV_kprev (r : Reg) (b : Byte) : (s.setV r b).kprev = s.kprev := rfl
@[simp] theorem State.setV_watching (r : Reg) (b : Byte) : (s.setV r b).watching = s.watching := rfl
@[simp] theorem State.setV_cycle (r : Reg) (b : Byte) : (s.setV r b).cycle = s.cycle := rfl
@[simp] theorem State.setV_mem (r : Reg) (b : Byte) : (s.setV r b).mem = s.mem := rfl
@[simp] theorem State.setV_display (r : Reg) (b : Byte) : (s.setV r b).display = s.display := rfl
@[simp] theorem State.setV_paused (r : Reg) (b : Byte) : (s.setV r b).paused = s.paused := rfl
@[simp] theorem State.setV_stopped (r : Reg) (b : Byte) : (s.setV r b).stopped = s.stopped := rfl
@[simp] theorem State.setV_draws (r : Reg) (b : Byte) : (s.setV r b).draws = s.draws := rfl
@[simp] theorem State.setV_schedule (r : Reg) (b : Byte) : (s.setV r b).schedule = s.schedule := rfl
@[simp] theorem State.byteAt_setV (r : Reg) (b : Byte) (q : Nat) : (s.setV r b).byteAt q = s.byteAt q := rfl
@[simp] theorem State.memRead8_setV (r : Reg) (b : Byte) (q : Word) : (s.setV r b).memRead8 q = s.memRead8 q := rfl
@[simp] theorem State.memRead16_setV (r : Reg) (b : Byte) (q : Word) : (s.setV r b).memRead16 q = s.memRead16 q := rfl

/-! ### `setPc` -/

@[simp] theorem State.setPc_cfg (a : Word) : (s.setPc a).cfg = s.cfg := rfl
@[simp] theorem State.setPc_v (a : Word) : (s.setPc a).v = s.v := rfl
@[simp] theorem State.setPc_pc (a : Word) : (s.setPc a).pc = a := rfl
@[simp] theorem State.setPc_mar (a : Word) : (s.setPc a).mar = s.mar := rfl
@[simp] theorem State.setPc_i (a : Word) : (s.setPc a).i = s.i := rfl
@[simp] theorem State.setPc_dt (a : Word) : (s.setPc a).dt = s.dt := rfl
@[simp] theorem State.setPc_st (a : Word) : (s.setPc a).st = s.st := rfl
@[simp] theorem State.setPc_stack (a : Word) : (s.setPc a).stack = s.stack := rfl
@[simp] theorem State.setPc_sp (a : Word) : (s.setPc a).sp = s.sp := rfl
@[simp] theorem State.setPc_keys (a : Word) : (s.setPc a).keys = s.keys := rfl
@[simp] theorem State.setPc_kprev (a : Word) : (s.setPc a).kprev = s.kprev := rfl
@[simp] theorem State.setPc_watching (a : Word) : (s.setPc a).watching = s.watching := rfl
@[simp] theorem State.setPc_cycle (a : Word) : (s.setPc a).cycle = s.cycle := rfl
@[simp] theorem State.setPc_mem (a : Word) : (s.setPc a).mem = s.mem := rfl
@[simp] theorem State.setPc_display (a : Word) : (s.setPc a).display = s.display := rfl
@[simp] theorem State.setPc_paused (a : Word) : (s.setPc a).paused = s.paused := rfl
@[simp] theorem State.setPc_stopped (a : Word) : (s.setPc a).stopped = s.stopped := rfl
@[simp] theorem State.setPc_draws (a : Word) : (s.setPc a).draws = s.draws := rfl
@[simp] theorem State.setPc_schedule (a : Word) : (s.setPc a).schedule = s.schedule := rfl
@[simp] theorem State.getV_setPc (a : Word) (q : Reg) : (s.setPc a).getV q = s.getV q := rfl
@[simp] theorem State.byteAt_setPc (a : Word) (q : Nat) : (s.setPc a).byteAt q = s.byteAt q := rfl
@[simp] theorem State.memRead8_setPc (a : Word) (q : Word) : (s.setPc a).memRead8 q = s.memRead8 q := rfl
@[simp] theorem State.memRead16_setPc (a : Word) (q : Word) : (s.setPc a).memRead16 q = s.memRead16 q := rfl

/-! ### `setI` -/

@[simp] theorem State.setI_cfg (a : Word) : (s.setI a).cfg = s.cfg := rfl
@[simp] theorem State.setI_v (a : Word) : (s.setI a).v = s.v := rfl
@[simp] theorem State.setI_pc (a : Word) : (s.setI a).pc = s.pc := rfl
@[simp] theorem State.setI_mar (a : Word) : (s.setI a).mar = s.mar := rfl
@[simp] theorem State.setI_i (a : Word) : (s.setI a).i = a := rfl
@[simp] theorem State.setI_dt (a : Word) : (s.setI a).dt = s.dt := rfl
@[simp] theorem State.setI_st (a : Word) : (s.setI a).st = s.st := rfl
@[simp] theorem State.setI_stack (a : Word) : (s.setI a).stack = s.stack := rfl
@[simp] theorem State.setI_sp (a : Word) : (s.setI a).sp = s.sp := rfl
@[simp] theorem State.setI_keys (a : Word) : (s.setI a).keys = s.keys := rfl
@[simp] theorem State.setI_kprev (a : Word) : (s.setI a).kprev = s.kprev := rfl
@[simp] theorem State.setI_watching (a : Word) : (s.setI a).watching = s.watching := rfl
@[simp] theorem State.setI_cycle (a : Word) : (s.setI a).cycle = s.cycle := rfl
@[simp] theorem State.setI_mem (a : Word) : (s.setI a).mem = s.mem := rfl
@[simp] theorem State.setI_display (a : Word) : (s.setI a).display = s.display := rfl
@[simp] theorem State.setI_paused (a : Word) : (s.setI a).paused = s.paused := rfl
@[simp] theorem State.setI_stopped (a : Word) : (s.setI a).stopped = s.stopped := rfl
@[simp] theorem State.setI_draws (a : Word) : (s.setI a).draws = s.draws := rfl
@[simp] theorem State.setI_schedule (a : Word) : (s.setI a).schedule = s.schedule := rfl
@[simp] theorem State.getV_setI (a : Word) (q : Reg) : (s.setI a).getV q = s.getV q := rfl
@[simp] theorem State.byteAt_setI (a : Word) (q : Nat) : (s.setI a).byteAt q = s.byteAt q := rfl
@[simp] theorem State.memRead8_setI (a : Word) (q : Word) : (s.setI a).memRead8 q = s.memRead8 q := rfl
@[simp] theorem State.memRead16_setI (a : Word) (q : Word) : (s.setI a).memRead16 q = s.memRead16 q := rfl

/-! ### `setDt` -/

@[simp] theorem State.setDt_cfg (b : Byte) : (s.setDt b).cfg = s.cfg := rfl
@[simp] theorem State.setDt_v (b : Byte) : (s.setDt b).v = s.v := rfl
@[simp] theorem State.setDt_pc (b : Byte) : (s.setDt b).pc = s.pc := rfl
@[simp] theorem State.setDt_mar (b : Byte) : (s.setDt b).mar = s.mar := rfl
@[simp] theorem State.setDt_i (b : Byte) : (s.setDt b).i = s.i := rfl
@[simp] theorem State.setDt_dt (b : Byte) : (s.setDt b).dt = b := rfl
@[simp] theorem State.setDt_st (b : Byte) : (s.setDt b).st = s.st := rfl
@[simp] theorem State.setDt_stack (b : Byte) : (s.setDt b).stack = s.stack := rfl
@[simp] theorem State.setDt_sp (b : Byte) : (s.setDt b).sp = s.sp := rfl
@[simp] theorem State.setDt_keys (b : Byte) : (s.setDt b).keys = s.keys := rfl
@[simp] theorem State.setDt_kprev (b : Byte) : (s.setDt b).kprev = s.kprev := rfl
@[simp] theorem State.setDt_watching (b : Byte) : (s.setDt b).watching = s.watching := rfl
@[simp] theorem State.setDt_cycle (b : Byte) : (s.setDt b).cycle = s.cycle := rfl
@[simp] theorem State.setDt_mem (b : Byte) : (s.setDt b).mem = s.mem := rfl
@[simp] theorem State.setDt_display (b : Byte) : (s.setDt b).display = s.display := rfl
@[simp] theorem State.setDt_paused (b : Byte) : (s.setDt b).paused = s.paused := rfl
@[simp] theorem State.setDt_stopped (b : Byte) : (s.setDt b).stopped = s.stopped := rfl
@[simp] theorem State.setDt_draws (b : Byte) : (s.setDt b).draws = s.draws := rfl
@[simp] theorem State.setDt_schedule (b : Byte) : (s.setDt b).schedule = s.schedule := rfl
@[simp] theorem State.getV_setDt (b : Byte) (q : Reg) : (s.setDt b).getV q = s.getV q := rfl
@[simp] theorem State.byteAt_setDt (b : Byte) (q : Nat) : (s.setDt b).byteAt q = s.byteAt q := rfl
@[simp] theorem State.memRead8_setDt (b : Byte) (q : Word) : (s.setDt b).memRead8 q = s.memRead8 q := rfl
@[simp] theorem State.memRead16_setDt (b : Byte) (q : Word) : (s.setDt b).memRead16 q = s.memRead16 q := rfl

/-! ### `setSt` -/

@[simp] theorem State.setSt_cfg (b : Byte) : (s.setSt b).cfg = s.cfg := rfl
@[simp] theorem State.setSt_v (b : Byte) : (s.setSt b).v = s.v := rfl
@[simp] theorem State.setSt_pc (b : Byte) : (s.setSt b).pc = s.pc := rfl
@[simp] theorem State.setSt_mar (b : Byte) : (s.setSt b).mar = s.mar := rfl
@[simp] theorem State.setSt_i (b : Byte) : (s.setSt b).i = s.i := rfl
@[simp] theorem State.setSt_dt (b : Byte) : (s.setSt b).dt = s.dt := rfl
@[simp] theorem State.setSt_st (b : Byte) : (s.setSt b).st = b := rfl
@[simp] theorem State.setSt_stack (b : Byte) : (s.setSt b).stack = s.stack := rfl
@[simp] theorem State.setSt_sp (b : Byte) : (s.setSt b).sp = s.sp := rfl
@[simp] theorem State.setSt_keys (b : Byte) : (s.setSt b).keys = s.keys := rfl
@[simp] theorem State.setSt_kprev (b : Byte) : (s.setSt b).kprev = s.kprev := rfl
@[simp] theorem State.setSt_watching (b : Byte) : (s.setSt b).watching = s.watching := rfl
@[simp] theorem State.setSt_cycle (b : Byte) : (s.setSt b).cycle = s.cycle := rfl
@[simp] theorem State.setSt_mem (b : Byte) : (s.setSt b).mem = s.mem := rfl
@[simp] theorem State.setSt_display (b : Byte) : (s.setSt b).display = s.display := rfl
@[simp] theorem State.setSt_paused (b : Byte) : (s.setSt b).paused = s.paused := rfl
@[simp] theorem State.setSt_stopped (b : Byte) : (s.setSt b).stopped = s.stopped := rfl
@[simp] theorem State.setSt_draws (b : Byte) : (s.setSt b).draws = s.draws := rfl
@[simp] theorem State.setSt_schedule (b : Byte) : (s.setSt b).schedule = s.schedule := rfl
@[simp] theorem State.getV_setSt (b : Byte) (q : Reg) : (s.setSt b).getV q = s.getV q := rfl
@[simp] theorem State.byteAt_setSt (b : Byte) (q : Nat) : (s.setSt b).byteAt q = s.byteAt q := rfl
@[simp] theorem State.memRead8_setSt (b : Byte) (q : Word) : (s.setSt b).memRead8 q = s.memRead8 q := rfl
@[simp] theorem State.memRead16_setSt (b : Byte) (q : Word) : (s.setSt b).memRead16 q = s.memRead16 q := rfl

/-! ### `setStack` -/

@[simp] theorem State.setStack_cfg (l : List Word) (n : Nat) : (s.setStack l n).cfg = s.cfg := rfl
@[simp] theorem State.setStack_v (l : List Word) (n : Nat) : (s.setStack l n).v = s.v := rfl
@[simp] theorem State.setStack_pc (l : List Word) (n : Nat) : (s.setStack l n).pc = s.pc := rfl
@[simp] theorem State.setStack_mar (l : List Word) (n : Nat) : (s.setStack l n).mar = s.mar := rfl
@[simp] theorem State.setStack_i (l : List Word) (n : Nat) : (s.setStack l n).i = s.i := rfl
@[simp] theorem State.setStack_dt (l : List Word) (n : Nat) : (s.setStack l n).dt = s.dt := rfl
@[simp] theorem State.setStack_st (l : List Word) (n : Nat) : (s.setStack l n).st = s.st := rfl
@[simp] theorem State.setStack_stack (l : List Word) (n : Nat) : (s.setStack l n).stack = l := rfl
@[simp] theorem State.setStack_sp (l : List Word) (n : Nat) : (s.setStack l n).sp = n := rfl
@[simp] theorem State.setStack_keys (l : List Word) (n : Nat) : (s.setStack l n).keys = s.keys := rfl
@[simp] theorem State.setStack_kprev (l : List Word) (n : Nat) : (s.setStack l n).kprev = s.kprev := rfl
@[simp] theorem State.setStack_watching (l : List Word) (n : Nat) : (s.setStack l n).watching = s.watching := rfl
@[simp] theorem State.setStack_cycle (l : List Word) (n : Nat) : (s.setStack l n).cycle = s.cycle := rfl
@[simp] theorem State.setStack_mem (l : List Word) (n : Nat) : (s.setStack l n).mem = s.mem := rfl
@[simp] theorem State.setStack_display (l : List Word) (n : Nat) : (s.setStack l n).display = s.display := rfl
@[simp] theorem State.setStack_paused (l : List Word) (n : Nat) : (s.setStack l n).paused = s.paused := rfl
@[simp] theorem State.setStack_stopped (l : List Word) (n : Nat) : (s.setStack l n).stopped = s.stopped := rfl
@[simp] theorem State.setStack_draws (l : List Word) (n : Nat) : (s.setStack l n).draws = s.draws := rfl
@[simp] theorem State.setStack_schedule (l : List Word) (n : Nat) : (s.setStack l n).schedule = s.schedule := rfl
@[simp] theorem State.getV_setStack (l : List Word) (n : Nat) (q : Reg) : (s.setStack l n).getV q = s.getV q := rfl
@[simp] theorem State.byteAt_setStack (l : List Word) (n : Nat) (q : Nat) : (s.setStack l n).byteAt q = s.byteAt q := rfl
@[simp] theorem State.memRead8_setStack (l : List Word) (n : Nat) (q : Word) : (s.setStack l n).memRead8 q = s.memRead8 q := rfl
@[simp] theorem State.memRead16_setStack (l : List Word) (n : Nat) (q : Word) : (s.setStack l n).memRead16 q = s.memRead16 q := rfl

/-! ### `setWait` -/

@[simp] theorem State.setWait_cfg (ks : Vector Bool 16) (w : Bool) : (s.setWait ks w).cfg = s.cfg := rfl
@[simp] theorem State.setWait_v (ks : Vector Bool 16) (w : Bool) : (s.setWait ks w).v = s.v := rfl
@[simp] theorem State.setWait_pc (ks : Vector Bool 16) (w : Bool) : (s.setWait ks w).pc = s.pc := rfl
@[simp] theorem State.setWait_mar (ks : Vector Bool 16) (w : Bool) : (s.setWait ks w).mar = s.mar := rfl
@[simp] theorem State.setWait_i (ks : Vector Bool 16) (w : Bool) : (s.setWait ks w).i = s.i := rfl
@[simp] theorem State.setWait_dt (ks : Vector Bool 16) (w : Bool) : (s.setWait ks w).dt = s.dt := rfl
@[simp] theorem State.setWait_st (ks : Vector Bool 16) (w : Bool) : (s.setWait ks w).st = s.st := rfl
@[simp] theorem State.setWait_stack (ks : Vector Bool 16) (w : Bool) : (s.setWait ks w).stack = s.stack := rfl
@[simp] theorem State.setWait_sp (ks : Vector Bool 16) (w : Bool) : (s.setWait ks w).sp = s.sp := rfl
@[simp] theorem State.setWait_keys (ks : Vector Bool 16) (w : Bool) : (s.setWait ks w).keys = s.keys := rfl
@[simp] theorem State.setWait_kprev (ks : Vector Bool 16) (w : Bool) : (s.setWait ks w).kprev = ks := rfl
@[simp] theorem State.setWait_watching (ks : Vector Bool 16) (w : Bool) : (s.setWait ks w).watching = w := rfl
@[simp] theorem State.setWait_cycle (ks : Vector Bool 16) (w : Bool) : (s.setWait ks w).cycle = s.cycle := rfl
@[simp] theorem State.setWait_mem (ks : Vector Bool 16) (w : Bool) : (s.setWait ks w).mem = s.mem := rfl
@[simp] theorem State.setWait_display (ks : Vector Bool 16) (w : Bool) : (s.setWait ks w).display = s.display := rfl
@[simp] theorem State.setWait_paused (ks : Vector Bool 16) (w : Bool) : (s.setWait ks w).paused = s.paused := rfl
@[simp] theorem State.setWait_stopped (ks : Vector Bool 16) (w : Bool) : (s.setWait ks w).stopped = s.stopped := rfl
@[simp] theorem State.setWait_draws (ks : Vector Bool 16) (w : Bool) : (s.setWait ks w).draws = s.draws := rfl
@[simp] theorem State.setWait_schedule (ks : Vector Bool 16) (w : Bool) : (s.setWait ks w).schedule = s.schedule := rfl
@[simp] theorem State.getV_setWait (ks : Vector Bool 16) (w : Bool) (q : Reg) : (s.setWait ks w).getV q = s.getV q := rfl
@[simp] theorem State.byteAt_setWait (ks : Vector Bool 16) (w : Bool) (q : Nat) : (s.setWait ks w).byteAt q = s.byteAt q := rfl
@[simp] theorem State.memRead8_setWait (ks : Vector Bool 16) (w : Bool) (q : Word) : (s.setWait ks w).memRead8 q = s.memRead8 q := rfl
@[simp] theorem State.memRead16_setWait (ks : Vector Bool 16) (w : Bool) (q : Word) : (s.setWait ks w).memRead16 q = s.memRead16 q := rfl

/-! ### `setMem` -/

@[simp] theorem State.setMem_cfg (m : List Host.Cell) : (s.setMem m).cfg = s.cfg := rfl
@[simp] theorem State.setMem_v (m : List Host.Cell) : (s.setMem m).v = s.v := rfl
@[simp] theorem State.setMem_pc (m : List Host.Cell) : (s.setMem m).pc = s.pc := rfl
@[simp] theorem State.setMem_mar (m : List Host.Cell) : (s.setMem m).mar = s.mar := rfl
@[simp] theorem State.setMem_i (m : List Host.Cell) : (s.setMem m).i = s.i := rfl
@[simp] theorem State.setMem_dt (m : List Host.Cell) : (s.setMem m).dt = s.dt := rfl
@[simp] theorem State.setMem_st (m : List Host.Cell) : (s.setMem m).st = s.st := rfl
@[simp] theorem State.setMem_stack (m : List Host.Cell) : (s.setMem m).stack = s.stack := rfl
@[simp] theorem State.setMem_sp (m : List Host.Cell) : (s.setMem m).sp = s.sp := rfl
@[simp] theorem State.setMem_keys (m : List Host.Cell) : (s.setMem m).keys = s.keys := rfl
@[simp] theorem State.setMem_kprev (m : List Host.Cell) : (s.setMem m).kprev = s.kprev := rfl
@[simp] theorem State.setMem_watching (m : List Host.Cell) : (s.setMem m).watching = s.watching := rfl
@[simp] theorem State.setMem_cycle (m : List Host.Cell) : (s.setMem m).cycle = s.cycle := rfl
@[simp] theorem State.setMem_mem (m : List Host.Cell) : (s.setMem m).mem = m := rfl
@[simp] theorem State.setMem_display (m : List Host.Cell) : (s.setMem m).display = s.display := rfl
@[simp] theorem State.setMem_paused (m : List Host.Cell) : (s.setMem m).paused = s.paused := rfl
@[simp] theorem State.setMem_stopped (m : List Host.Cell) : (s.setMem m).stopped = s.stopped := rfl
@[simp] theorem State.setMem_draws (m : List Host.Cell) : (s.setMem m).draws = s.draws := rfl
@[simp] theorem State.setMem_schedule (m : List Host.Cell) : (s.setMem m).schedule = s.schedule := rfl
@[simp] theorem State.getV_setMem (m : List Host.Cell) (q : Reg) : (s.setMem m).getV q = s.getV q := rfl

/-! ### `setDisplay` -/

@[simp] theorem State.setDisplay_cfg (d : List Byte) : (s.setDisplay d).cfg = s.cfg := rfl
@[simp] theorem State.setDisplay_v (d : List Byte) : (s.setDisplay d).v = s.v := rfl
@[simp] theorem State.setDisplay_pc (d : List Byte) : (s.setDisplay d).pc = s.pc := rfl
@[simp] theorem State.setDisplay_mar (d : List Byte) : (s.setDisplay d).mar = s.mar := rfl
@[simp] theorem State.setDisplay_i (d : List Byte) : (s.setDisplay d).i = s.i := rfl
@[simp] theorem State.setDisplay_dt (d : List Byte) : (s.setDisplay d).dt = s.dt := rfl
@[simp] theorem State.setDisplay_st (d : List Byte) : (s.setDisplay d).st = s.st := rfl
@[simp] theorem State.setDisplay_stack (d : List Byte) : (s.setDisplay d).stack = s.stack := rfl
@[simp] theorem State.setDisplay_sp (d : List Byte) : (s.setDisplay d).sp = s.sp := rfl
@[simp] theorem State.setDisplay_keys (d : List Byte) : (s.setDisplay d).keys = s.keys := rfl
@[simp] theorem State.setDisplay_kprev (d : List Byte) : (s.setDisplay d).kprev = s.kprev := rfl
@[simp] theorem State.setDisplay_watching (d : List Byte) : (s.setDisplay d).watching = s.watching := rfl
@[simp] theorem State.setDisplay_cycle (d : List Byte) : (s.setDisplay d).cycle = s.cycle := rfl
@[simp] theorem State.setDisplay_mem (d : List Byte) : (s.setDisplay d).mem = s.mem := rfl
@[simp] theorem State.setDisplay_display (d : List Byte) : (s.setDisplay d).display = d := rfl
@[simp] theorem State.setDisplay_paused (d : List Byte) : (s.setDisplay d).paused = s.paused := rfl
@[simp] theorem State.setDisplay_stopped (d : List Byte) : (s.setDisplay d).stopped = s.stopped := rfl
@[simp] theorem State.setDisplay_draws (d : List Byte) : (s.setDisplay d).draws = s.draws := rfl
@[simp] theorem State.setDisplay_schedule (d : List Byte) : (s.setDisplay d).schedule = s.schedule := rfl
@[simp] theorem State.getV_setDisplay (d : List Byte) (q : Reg) : (s.setDisplay d).getV q = s.getV q := rfl
@[simp] theorem State.byteAt_setDisplay (d : List Byte) (q : Nat) : (s.setDisplay d).byteAt q = s.byteAt q := rfl
@[simp] theorem State.memRead8_setDisplay (d : List Byte) (q : Word) : (s.setDisplay d).memRead8 q = s.memRead8 q := rfl
@[simp] theorem State.memRead16_setDisplay (d : List Byte) (q : Word) : (s.setDisplay d).memRead16 q = s.memRead16 q := rfl

/-! ### `nextDraw` -/

@[simp] theorem State.nextDraw_cfg : (s.nextDraw).cfg = s.cfg := rfl
@[simp] theorem State.nextDraw_v : (s.nextDraw).v = s.v := rfl
@[simp] theorem State.nextDraw_pc : (s.nextDraw).pc = s.pc := rfl
@[simp] theorem State.nextDraw_mar : (s.nextDraw).mar = s.mar := rfl
@[simp] theorem State.nextDraw_i : (s.nextDraw).i = s.i := rfl
@[simp] theorem State.nextDraw_dt : (s.nextDraw).dt = s.dt := rfl
@[simp] theorem State.nextDraw_st : (s.nextDraw).st = s.st := rfl
@[simp] theorem State.nextDraw_stack : (s.nextDraw).stack = s.stack := rfl
@[simp] theorem State.nextDraw_sp : (s.nextDraw).sp = s.sp := rfl
@[simp] theorem State.nextDraw_keys : (s.nextDraw).keys = s.keys := rfl
@[simp] theorem State.nextDraw_kprev : (s.nextDraw).kprev = s.kprev := rfl
@[simp] theorem State.nextDraw_watching : (s.nextDraw).watching = s.watching := rfl
@[simp] theorem State.nextDraw_cycle : (s.nextDraw).cycle = s.cycle := rfl
@[simp] theorem State.nextDraw_mem : (s.nextDraw).mem = s.mem := rfl
@[simp] theorem State.nextDraw_display : (s.nextDraw).display = s.display := rfl
@[simp] theorem State.nextDraw_paused : (s.nextDraw).paused = s.paused := rfl
@[simp] theorem State.nextDraw_stopped : (s.nextDraw).stopped = s.stopped := rfl
@[simp] theorem State.nextDraw_draws : (s.nextDraw).draws = s.draws + 1 := rfl
@[simp] theorem State.nextDraw_schedule : (s.nextDraw).schedule = s.schedule := rfl
@[simp] theorem State.getV_nextDraw (q : Reg) : (s.nextDraw).getV q = s.getV q := rfl
@[simp] theorem State.byteAt_nextDraw (q : Nat) : (s.nextDraw).byteAt q = s.byteAt q := rfl
@[simp] theorem State.memRead8_nextDraw (q : Word) : (s.nextDraw).memRead8 q = s.memRead8 q := rfl
@[simp] theorem State.memRead16_nextDraw (q : Word) : (s.nextDraw).memRead16 q = s.memRead16 q := rfl

/-! ### `memWrite8` -/

@[simp] theorem State.memWrite8_cfg (a : Word) (b : Byte) : (s.memWrite8 a b).cfg = s.cfg := rfl
@[simp] theorem State.memWrite8_v (a : Word) (b : Byte) : (s.memWrite8 a b).v = s.v := rfl
@[simp] theorem State.memWrite8_pc (a : Word) (b : Byte) : (s.memWrite8 a b).pc = s.pc := rfl
@[simp] theorem State.memWrite8_mar (a : Word) (b : Byte) : (s.memWrite8 a b).mar = s.mar := rfl
@[simp] theorem State.memWrite8_i (a : Word) (b : Byte) : (s.memWrite8 a b).i = s.i := rfl
@[simp] theorem State.memWrite8_dt (a : Word) (b : Byte) : (s.memWrite8 a b).dt = s.dt := rfl
@[simp] theorem State.memWrite8_st (a : Word) (b : Byte) : (s.memWrite8 a b).st = s.st := rfl
@[simp] theorem State.memWrite8_stack (a : Word) (b : Byte) : (s.memWrite8 a b).stack = s.stack := rfl
@[simp] theorem State.memWrite8_sp (a : Word) (b : Byte) : (s.memWrite8 a b).sp = s.sp := rfl
@[simp] theorem State.memWrite8_keys (a : Word) (b : Byte) : (s.memWrite8 a b).keys = s.keys := rfl
@[simp] theorem State.memWrite8_kprev (a : Word) (b : Byte) : (s.memWrite8 a b).kprev = s.kprev := rfl
@[simp] theorem State.memWrite8_watching (a : Word) (b : Byte) : (s.memWrite8 a b).watching = s.watching := rfl
@[simp] theorem State.memWrite8_cycle (a : Word) (b : Byte) : (s.memWrite8 a b).cycle = s.cycle := rfl
@[simp] theorem State.memWrite8_display (a : Word) (b : Byte) : (s.memWrite8 a b).display = s.display := rfl
@[simp] theorem State.memWrite8_paused (a : Word) (b : Byte) : (s.memWrite8 a b).paused = s.paused := rfl
@[simp] theorem State.memWrite8_stopped (a : Word) (b : Byte) : (s.memWrite8 a b).stopped = s.stopped := rfl
@[simp] theorem State.memWrite8_draws (a : Word) (b : Byte) : (s.memWrite8 a b).draws = s.draws := rfl
@[simp] theorem State.memWrite8_schedule (a : Word) (b : Byte) : (s.memWrite8 a b).schedule = s.schedule := rfl
@[simp] theorem State.getV_memWrite8 (a : Word) (b : Byte) (q : Reg) : (s.memWrite8 a b).getV q = s.getV q := rfl

/-! ### `memWrite16` -/

@[simp] theorem State.memWrite16_cfg (a : Word) (w : Word) : (s.memWrite16 a w).cfg = s.cfg := rfl
@[simp] theorem State.memWrite16_v (a : Word) (w : Word) : (s.memWrite16 a w).v = s.v := rfl
@[simp] theorem State.memWrite16_pc (a : Word) (w : Word) : (s.memWrite16 a w).pc = s.pc := rfl
@[simp] theorem State.memWrite16_mar (a : Word) (w : Word) : (s.memWrite16 a w).mar = s.mar := rfl
@[simp] theorem State.memWrite16_i (a : Word) (w : Word) : (s.memWrite16 a w).i = s.i := rfl
@[simp] theorem State.memWrite16_dt (a : Word) (w : Word) : (s.memWrite16 a w).dt = s.dt := rfl
@[simp] theorem State.memWrite16_st (a : Word) (w : Word) : (s.memWrite16 a w).st = s.st := rfl
@[simp] theorem State.memWrite16_stack (a : Word) (w : Word) : (s.memWrite16 a w).stack = s.stack := rfl
@[simp] theorem State.memWrite16_sp (a : Word) (w : Word) : (s.memWrite16 a w).sp = s.sp := rfl
@[simp] theorem State.memWrite16_keys (a : Word) (w : Word) : (s.memWrite16 a w).keys = s.keys := rfl
@[simp] theorem State.memWrite16_kprev (a : Word) (w : Word) : (s.memWrite16 a w).kprev = s.kprev := rfl
@[simp] theorem State.memWrite16_watching (a : Word) (w : Word) : (s.memWrite16 a w).watching = s.watching := rfl
@[simp] theorem State.memWrite16_cycle (a : Word) (w : Word) : (s.memWrite16 a w).cycle = s.cycle := rfl
@[simp] theorem State.memWrite16_display (a : Word) (w : Word) : (s.memWrite16 a w).display = s.display := rfl
@[simp] theorem State.memWrite16_paused (a : Word) (w : Word) : (s.memWrite16 a w).paused = s.paused := rfl
@[simp] theorem State.memWrite16_stopped (a : Word) (w : Word) : (s.memWrite16 a w).stopped = s.stopped := rfl
@[simp] theorem State.memWrite16_draws (a : Word) (w : Word) : (s.memWrite16 a w).draws = s.draws := rfl
@[simp] theorem State.memWrite16_schedule (a : Word) (w : Word) : (s.memWrite16 a w).schedule = s.schedule := rfl
@[simp] theorem State.getV_memWrite16 (a : Word) (w : Word) (q : Reg) : (s.memWrite16 a w).getV q = s.getV q := rfl

/-! ### `push` -/

@[simp] theorem State.push_cfg (w : Word) : (s.push w).cfg = s.cfg := rfl
@[simp] theorem State.push_v (w : Word) : (s.push w).v = s.v := rfl
@[simp] theorem State.push_pc (w : Word) : (s.push w).pc = s.pc := rfl
@[simp] theorem State.push_mar (w : Word) : (s.push w).mar = s.mar := rfl
@[simp] theorem State.push_i (w : Word) : (s.push w).i = s.i := rfl
@[simp] theorem State.push_dt (w : Word) : (s.push w).dt = s.dt := rfl
@[simp] theorem State.push_st (w : Word) : (s.push w).st = s.st := rfl
@[simp] theorem State.push_keys (w : Word) : (s.push w).keys = s.keys := rfl
@[simp] theorem State.push_kprev (w : Word) : (s.push w).kprev = s.kprev := rfl
@[simp] theorem State.push_watching (w : Word) : (s.push w).watching = s.watching := rfl
@[simp] theorem State.push_cycle (w : Word) : (s.push w).cycle = s.cycle := rfl
@[simp] theorem State.push_mem (w : Word) : (s.push w).mem = s.mem := rfl
@[simp] theorem State.push_display (w : Word) : (s.push w).display = s.display := rfl
@[simp] theorem State.push_paused (w : Word) : (s.push w).paused = s.paused := rfl
@[simp] theorem State.push_stopped (w : Word) : (s.push w).stopped = s.stopped := rfl
@[simp] theorem State.push_draws (w : Word) : (s.push w).draws = s.draws := rfl
@[simp] theorem State.push_schedule (w : Word) : (s.push w).schedule = s.schedule := rfl
@[simp] theorem State.getV_push (w : Word) (q : Reg) : (s.push w).getV q = s.getV q := rfl
@[simp] theorem State.byteAt_push (w : Word) (q : Nat) : (s.push w).byteAt q = s.byteAt q := rfl
@[simp] theorem State.memRead8_push (w : Word) (q : Word) : (s.push w).memRead8 q = s.memRead8 q := rfl
@[simp] theorem State.memRead16_push (w : Word) (q : Word) : (s.push w).memRead16 q = s.memRead16 q := rfl

/-! ### `pop` -/

@[simp] theorem State.pop_cfg : (s.pop).cfg = s.cfg := rfl
@[simp] theorem State.pop_v : (s.pop).v = s.v := rfl
@[simp] theorem State.pop_pc : (s.pop).pc = s.pc := rfl
@[simp] theorem State.pop_mar : (s.pop).mar = s.mar := rfl
@[simp] theorem State.pop_i : (s.pop).i = s.i := rfl
@[simp] theorem State.pop_dt : (s.pop).dt = s.dt := rfl
@[simp] theorem State.pop_st : (s.pop).st = s.st := rfl
@[simp] theorem State.pop_stack : (s.pop).stack = s.stack := rfl
@[simp] theorem State.pop_sp : (s.pop).sp = s.sp - 1 := rfl
@[simp] theorem State.pop_keys : (s.pop).keys = s.keys := rfl
@[simp] theorem State.pop_kprev : (s.pop).kprev = s.kprev := rfl
@[simp] theorem State.pop_watching : (s.pop).watching = s.watching := rfl
@[simp] theorem State.pop_cycle : (s.pop).cycle = s.cycle := rfl
@[simp] theorem State.pop_mem : (s.pop).mem = s.mem := rfl
@[simp] theorem State.pop_display : (s.pop).display = s.display := rfl
@[simp] theorem State.pop_paused : (s.pop).paused = s.paused := rfl
@[simp] theorem State.pop_stopped : (s.pop).stopped = s.stopped := rfl
@[simp] theorem State.pop_draws : (s.pop).draws = s.draws := rfl
@[simp] theorem State.pop_schedule : (s.pop).schedule = s.schedule := rfl
@[simp] theorem State.getV_pop (q : Reg) : (s.pop).getV q = s.getV q := rfl
@[simp] theorem State.byteAt_pop (q : Nat) : (s.pop).byteAt q = s.byteAt q := rfl
@[simp] theorem State.memRead8_pop (q : Word) : (s.pop).memRead8 q = s.memRead8 q := rfl
@[simp] theorem State.memRead16_pop (q : Word) : (s.pop).memRead16 q = s.memRead16 q := rfl

/-! ### `skipIf` -/

@[simp] theorem State.skipIf_cfg (c : Bool) : (s.skipIf c).cfg = s.cfg := rfl
@[simp] theorem State.skipIf_v (c : Bool) : (s.skipIf c).v = s.v := rfl
@[simp] theorem State.skipIf_pc (c : Bool) : (s.skipIf c).pc = if c then s.pc + 2 else s.pc := rfl
@[simp] theorem State.skipIf_mar (c : Bool) : (s.skipIf c).mar = s.mar := rfl
@[simp] theorem State.skipIf_i (c : Bool) : (s.skipIf c).i = s.i := rfl
@[simp] theorem State.skipIf_dt (c : Bool) : (s.skipIf c).dt = s.dt := rfl
@[simp] theorem State.skipIf_st (c : Bool) : (s.skipIf c).st = s.st := rfl
@[simp] theorem State.skipIf_stack (c : Bool) : (s.skipIf c).stack = s.stack := rfl
@[simp] theorem State.skipIf_sp (c : Bool) : (s.skipIf c).sp = s.sp := rfl
@[simp] theorem State.skipIf_keys (c : Bool) : (s.skipIf c).keys = s.keys := rfl
@[simp] theorem State.skipIf_kprev (c : Bool) : (s.skipIf c).kprev = s.kprev := rfl
@[simp] theorem State.skipIf_watching (c : Bool) : (s.skipIf c).watching = s.watching := rfl
@[simp] theorem State.skipIf_cycle (c : Bool) : (s.skipIf c).cycle = s.cycle := rfl
@[simp] theorem State.skipIf_mem (c : Bool) : (s.skipIf c).mem = s.mem := rfl
@[simp] theorem State.skipIf_display (c : Bool) : (s.skipIf c).display = s.display := rfl
@[simp] theorem State.skipIf_paused (c : Bool) : (s.skipIf c).paused = s.paused := rfl
@[simp] theorem State.skipIf_stopped (c : Bool) : (s.skipIf c).stopped = s.stopped := rfl
@[simp] theorem State.skipIf_draws (c : Bool) : (s.skipIf c).draws = s.draws := rfl
@[simp] theorem State.skipIf_schedule (c : Bool) : (s.skipIf c).schedule = s.schedule := rfl
@[simp] theorem State.getV_skipIf (c : Bool) (q : Reg) : (s.skipIf c).getV q = s.getV q := rfl
@[simp] theorem State.byteAt_skipIf (c : Bool) (q : Nat) : (s.skipIf c).byteAt q = s.byteAt q := rfl
@[simp] theorem State.memRead8_skipIf (c : Bool) (q : Word) : (s.skipIf c).memRead8 q = s.memRead8 q := rfl
@[simp] theorem State.memRead16_skipIf (c : Bool) (q : Word) : (s.skipIf c).memRead16 q = s.memRead16 q := rfl

/-! ### `setResultFlag` -/

@[simp] theorem State.setResultFlag_cfg (x : Reg) (b : Byte) (f : Bool) : (s.setResultFlag x b f).cfg = s.cfg := rfl
@[simp] theorem State.setResultFlag_pc (x : Reg) (b : Byte) (f : Bool) : (s.setResultFlag x b f).pc = s.pc := rfl
@[simp] theorem State.setResultFlag_mar (x : Reg) (b : Byte) (f : Bool) : (s.setResultFlag x b f).mar = s.mar := rfl
@[simp] theorem State.setResultFlag_i (x : Reg) (b : Byte) (f : Bool) : (s.setResultFlag x b f).i = s.i := rfl
@[simp] theorem State.setResultFlag_dt (x : Reg) (b : Byte) (f : Bool) : (s.setResultFlag x b f).dt = s.dt := rfl
@[simp] theorem State.setResultFlag_st (x : Reg) (b : Byte) (f : Bool) : (s.setResultFlag x b f).st = s.st := rfl
@[simp] theorem State.setResultFlag_stack (x : Reg) (b : Byte) (f : Bool) : (s.setResultFlag x b f).stack = s.stack := rfl
@[simp] theorem State.setResultFlag_sp (x : Reg) (b : Byte) (f : Bool) : (s.setResultFlag x b f).sp = s.sp := rfl
@[simp] theorem State.setResultFlag_keys (x : Reg) (b : Byte) (f : Bool) : (s.setResultFlag x b f).keys = s.keys := rfl
@[simp] theorem State.setResultFlag_kprev (x : Reg) (b : Byte) (f : Bool) : (s.setResultFlag x b f).kprev = s.kprev := rfl
@[simp] theorem State.setResultFlag_watching (x : Reg) (b : Byte) (f : Bool) : (s.setResultFlag x b f).watching = s.watching := rfl
@[simp] theorem State.setResultFlag_cycle (x : Reg) (b : Byte) (f : Bool) : (s.setResultFlag x b f).cycle = s.cycle := rfl
@[simp] theorem State.setResultFlag_mem (x : Reg) (b : Byte) (f : Bool) : (s.setResultFlag x b f).mem = s.mem := rfl
@[simp] theorem State.setResultFlag_display (x : Reg) (b : Byte) (f : Bool) : (s.setResultFlag x b f).display = s.display := rfl
@[simp] theorem State.setResultFlag_paused (x : Reg) (b : Byte) (f : Bool) : (s.setResultFlag x b f).paused = s.paused := rfl
@[simp] theorem State.setResultFlag_stopped (x : Reg) (b : Byte) (f : Bool) : (s.setResultFlag x b f).stopped = s.stopped := rfl
@[simp] theorem State.setResultFlag_draws (x : Reg) (b : Byte) (f : Bool) : (s.setResultFlag x b f).draws = s.draws := rfl
@[simp] theorem State.setResultFlag_schedule (x : Reg) (b : Byte) (f : Bool) : (s.setResultFlag x b f).schedule = s.schedule := rfl
@[simp] theorem State.byteAt_setResultFlag (x : Reg) (b : Byte) (f : Bool) (q : Nat) : (s.setResultFlag x b f).byteAt q = s.byteAt q := rfl
@[simp] theorem State.memRead8_setResultFlag (x : Reg) (b : Byte) (f : Bool) (q : Word) : (s.setResultFlag x b f).memRead8 q = s.memRead8 q := rfl
@[simp] theorem State.memRead16_setResultFlag (x : Reg) (b : Byte) (f : Bool) (q : Word) : (s.setResultFlag x b f).memRead16 q = s.memRead16 q := rfl

/-! ### `timerTick` -/

@[simp] theorem State.timerTick_cfg : (s.timerTick).cfg = s.cfg := rfl
@[simp] theorem State.timerTick_v : (s.timerTick).v = s.v := rfl
@[simp] theorem State.timerTick_pc : (s.timerTick).pc = s.pc := rfl
@[simp] theorem State.timerTick_mar : (s.timerTick).mar = s.mar := rfl
@[simp] theorem State.timerTick_i : (s.timerTick).i = s.i := rfl
@[simp] theorem State.timerTick_dt : (s.timerTick).dt = countDown s.dt := rfl
@[simp] theorem State.timerTick_st : (s.timerTick).st = countDown s.st := rfl
@[simp] theorem State.timerTick_stack : (s.timerTick).stack = s.stack := rfl
@[simp] theorem State.timerTick_sp : (s.timerTick).sp = s.sp := rfl
@[simp] theorem State.timerTick_keys : (s.timerTick).keys = s.keys := rfl
@[simp] theorem State.timerTick_kprev : (s.timerTick).kprev = s.kprev := rfl
@[simp] theorem State.timerTick_watching : (s.timerTick).watching = s.watching := rfl
@[simp] theorem State.timerTick_cycle : (s.timerTick).cycle = s.cycle := rfl
@[simp] theorem State.timerTick_mem : (s.timerTick).mem = s.mem := rfl
@[simp] theorem State.timerTick_display : (s.timerTick).display = s.display := rfl
@[simp] theorem State.timerTick_paused : (s.timerTick).paused = s.paused := rfl
@[simp] theorem State.timerTick_stopped : (s.timerTick).stopped = s.stopped := rfl
@[simp] theorem State.timerTick_draws : (s.timerTick).draws = s.draws := rfl
@[simp] theorem State.timerTick_schedule : (s.timerTick).schedule = s.schedule := rfl
@[simp] theorem State.getV_timerTick (q : Reg) : (s.timerTick).getV q = s.getV q := rfl
@[simp] theorem State.byteAt_timerTick (q : Nat) : (s.timerTick).byteAt q = s.byteAt q := rfl
@[simp] theorem State.memRead8_timerTick (q : Word) : (s.timerTick).memRead8 q = s.memRead8 q := rfl
@[simp] theorem State.memRead16_timerTick (q : Word) : (s.timerTick).memRead16 q = s.memRead16 q := rfl

/-! ### `setKeyState` -/

@[simp] theorem State.setKeyState_cfg (k : Key) (b : Bool) : (s.setKeyState k b).cfg = s.cfg := rfl
@[simp] theorem State.setKeyState_v (k : Key) (b : Bool) : (s.setKeyState k b).v = s.v := rfl
@[simp] theorem State.setKeyState_pc (k : Key) (b : Bool) : (s.setKeyState k b).pc = s.pc := rfl
@[simp] theorem State.setKeyState_mar (k : Key) (b : Bool) : (s.setKeyState k b).mar = s.mar := rfl
@[simp] theorem State.setKeyState_i (k : Key) (b : Bool) : (s.setKeyState k b).i = s.i := rfl
@[simp] theorem State.setKeyState_dt (k : Key) (b : Bool) : (s.setKeyState k b).dt = s.dt := rfl
@[simp] theorem State.setKeyState_st (k : Key) (b : Bool) : (s.setKeyState k b).st = s.st := rfl
@[simp] theorem State.setKeyState_stack (k : Key) (b : Bool) : (s.setKeyState k b).stack = s.stack := rfl
@[simp] theorem State.setKeyState_sp (k : Key) (b : Bool) : (s.setKeyState k b).sp = s.sp := rfl
@[simp] theorem State.setKeyState_keys (k : Key) (b : Bool) : (s.setKeyState k b).keys = s.keys.set k b := rfl
@[simp] theorem State.setKeyState_kprev (k : Key) (b : Bool) : (s.setKeyState k b).kprev = s.kprev := rfl
@[simp] theorem State.setKeyState_watching (k : Key) (b : Bool) : (s.setKeyState k b).watching = s.watching := rfl
@[simp] theorem State.setKeyState_cycle (k : Key) (b : Bool) : (s.setKeyState k b).cycle = s.cycle := rfl
@[simp] theorem State.setKeyState_mem (k : Key) (b : Bool) : (s.setKeyState k b).mem = s.mem := rfl
@[simp] theorem State.setKeyState_display (k : Key) (b : Bool) : (s.setKeyState k b).display = s.display := rfl
@[simp] theorem State.setKeyState_paused (k : Key) (b : Bool) : (s.setKeyState k b).paused = s.paused := rfl
@[simp] theorem State.setKeyState_stopped (k : Key) (b : Bool) : (s.setKeyState k b).stopped = s.stopped := rfl
@[simp] theorem State.setKeyState_draws (k : Key) (b : Bool) : (s.setKeyState k b).draws = s.draws := rfl
@[simp] theorem State.setKeyState_schedule (k : Key) (b : Bool) : (s.setKeyState k b).schedule = s.schedule := rfl
@[simp] theorem State.getV_setKeyState (k : Key) (b : Bool) (q : Reg) : (s.setKeyState k b).getV q = s.getV q := rfl
@[simp] theorem State.byteAt_setKeyState (k : Key) (b : Bool) (q : Nat) : (s.setKeyState k b).byteAt q = s.byteAt q := rfl
@[simp] theorem State.memRead8_setKeyState (k : Key) (b : Bool) (q : Word) : (s.setKeyState k b).memRead8 q = s.memRead8 q := rfl
@[simp] theorem State.memRead16_setKeyState (k : Key) (b : Bool) (q : Word) : (s.setKeyState k b).memRead16 q = s.memRead16 q := rfl

/-! ### `setPaused` -/

@[simp] theorem State.setPaused_cfg (b : Bool) : (s.setPaused b).cfg = s.cfg := rfl
@[simp] theorem State.setPaused_v (b : Bool) : (s.setPaused b).v = s.v := rfl
@[simp] theorem State.setPaused_pc (b : Bool) : (s.setPaused b).pc = s.pc := rfl
@[simp] theorem State.setPaused_mar (b : Bool) : (s.setPaused b).mar = s.mar := rfl
@[simp] theorem State.setPaused_i (b : Bool) : (s.setPaused b).i = s.i := rfl
@[simp] theorem State.setPaused_dt (b : Bool) : (s.setPaused b).dt = s.dt := rfl
@[simp] theorem State.setPaused_st (b : Bool) : (s.setPaused b).st = s.st := rfl
@[simp] theorem State.setPaused_stack (b : Bool) : (s.setPaused b).stack = s.stack := rfl
@[simp] theorem State.setPaused_sp (b : Bool) : (s.setPaused b).sp = s.sp := rfl
@[simp] theorem State.setPaused_keys (b : Bool) : (s.setPaused b).keys = s.keys := rfl
@[simp] theorem State.setPaused_kprev (b : Bool) : (s.setPaused b).kprev = s.kprev := rfl
@[simp] theorem State.setPaused_watching (b : Bool) : (s.setPaused b).watching = s.watching := rfl
@[simp] theorem State.setPaused_cycle (b : Bool) : (s.setPaused b).cycle = s.cycle := rfl
@[simp] theorem State.setPaused_mem (b : Bool) : (s.setPaused b).mem = s.mem := rfl
@[simp] theorem State.setPaused_display (b : Bool) : (s.setPaused b).display = s.display := rfl
@[simp] theorem State.setPaused_paused (b : Bool) : (s.setPaused b).paused = b := rfl
@[simp] theorem State.setPaused_stopped (b : Bool) : (s.setPaused b).stopped = s.stopped := rfl
@[simp] theorem State.setPaused_draws (b : Bool) : (s.setPaused b).draws = s.draws := rfl
@[simp] theorem State.setPaused_schedule (b : Bool) : (s.setPaused b).schedule = s.schedule := rfl
@[simp] theorem State.getV_setPaused (b : Bool) (q : Reg) : (s.setPaused b).getV q = s.getV q := rfl
@[simp] theorem State.byteAt_setPaused (b : Bool) (q : Nat) : (s.setPaused b).byteAt q = s.byteAt q := rfl
@[simp] theorem State.memRead8_setPaused (b : Bool) (q : Word) : (s.setPaused b).memRead8 q = s.memRead8 q := rfl
@[simp] theorem State.memRead16_setPaused (b : Bool) (q : Word) : (s.setPaused b).memRead16 q = s.memRead16 q := rfl

/-! ### `stop` -/

@[simp] theorem State.stop_cfg : (s.stop).cfg = s.cfg := rfl
@[simp] theorem State.stop_v : (s.stop).v = s.v := rfl
@[simp] theorem State.stop_pc : (s.stop).pc = s.pc := rfl
@[simp] theorem State.stop_mar : (s.stop).mar = s.mar := rfl
@[simp] theorem State.stop_i : (s.stop).i = s.i := rfl
@[simp] theorem State.stop_dt : (s.stop).dt = s.dt := rfl
@[simp] theorem State.stop_st : (s.stop).st = s.st := rfl
@[simp] theorem State.stop_stack : (s.stop).stack = s.stack := rfl
@[simp] theorem State.stop_sp : (s.stop).sp = s.sp := rfl
@[simp] theorem State.stop_keys : (s.stop).keys = s.keys := rfl
@[simp] theorem State.stop_kprev : (s.stop).kprev = s.kprev := rfl
@[simp] theorem State.stop_watching : (s.stop).watching = s.watching := rfl
@[simp] theorem State.stop_cycle : (s.stop).cycle = s.cycle := rfl
@[simp] theorem State.stop_mem : (s.stop).mem = s.mem := rfl
@[simp] theorem State.stop_display : (s.stop).display = s.display := rfl
@[simp] theorem State.stop_paused : (s.stop).paused = s.paused := rfl
@[simp] theorem State.stop_stopped : (s.stop).stopped = true := rfl
@[simp] theorem State.stop_draws : (s.stop).draws = s.draws := rfl
@[simp] theorem State.stop_schedule : (s.stop).schedule = s.schedule := rfl
@[simp] theorem State.getV_stop (q : Reg) : (s.stop).getV q = s.getV q := rfl
@[simp] theorem State.byteAt_stop (q : Nat) : (s.stop).byteAt q = s.byteAt q := rfl
@[simp] theorem State.memRead8_stop (q : Word) : (s.stop).memRead8 q = s.memRead8 q := rfl
@[simp] theorem State.memRead16_stop (q : Word) : (s.stop).memRead16 q = s.memRead16 q := rfl

/-! ### `setSchedule` -/

@[simp] theorem State.setSchedule_cfg (σ : Schedule) : (s.setSchedule σ).cfg = s.cfg := rfl
@[simp] theorem State.setSchedule_v (σ : Schedule) : (s.setSchedule σ).v = s.v := rfl
@[simp] theorem State.setSchedule_pc (σ : Schedule) : (s.setSchedule σ).pc = s.pc := rfl
@[simp] theorem State.setSchedule_mar (σ : Schedule) : (s.setSchedule σ).mar = s.mar := rfl
@[simp] theorem State.setSchedule_i (σ : Schedule) : (s.setSchedule σ).i = s.i := rfl
@[simp] theorem State.setSchedule_dt (σ : Schedule) : (s.setSchedule σ).dt = s.dt := rfl
@[simp] theorem State.setSchedule_st (σ : Schedule) : (s.setSchedule σ).st = s.st := rfl
@[simp] theorem State.setSchedule_stack (σ : Schedule) : (s.setSchedule σ).stack = s.stack := rfl
@[simp] theorem State.setSchedule_sp (σ : Schedule) : (s.setSchedule σ).sp = s.sp := rfl
@[simp] theorem State.setSchedule_keys (σ : Schedule) : (s.setSchedule σ).keys = s.keys := rfl
@[simp] theorem State.setSchedule_kprev (σ : Schedule) : (s.setSchedule σ).kprev = s.kprev := rfl
@[simp] theorem State.setSchedule_watching (σ : Schedule) : (s.setSchedule σ).watching = s.watching := rfl
@[simp] theorem State.setSchedule_cycle (σ : Schedule) : (s.setSchedule σ).cycle = s.cycle := rfl
@[simp] theorem State.setSchedule_mem (σ : Schedule) : (s.setSchedule σ).mem = s.mem := rfl
@[simp] theorem State.setSchedule_display (σ : Schedule) : (s.setSchedule σ).display = s.display := rfl
@[simp] theorem State.setSchedule_paused (σ : Schedule) : (s.setSchedule σ).paused = s.paused := rfl
@[simp] theorem State.setSchedule_stopped (σ : Schedule) : (s.setSchedule σ).stopped = s.stopped := rfl
@[simp] theorem State.setSchedule_draws (σ : Schedule) : (s.setSchedule σ).draws = s.draws := rfl
@[simp] theorem State.setSchedule_schedule (σ : Schedule) : (s.setSchedule σ).schedule = σ := rfl
@[simp] theorem State.getV_setSchedule (σ : Schedule) (q : Reg) : (s.setSchedule σ).getV q = s.getV q := rfl
@[simp] theorem State.byteAt_setSchedule (σ : Schedule) (q : Nat) : (s.setSchedule σ).byteAt q = s.byteAt q := rfl
@[simp] theorem State.memRead8_setSchedule (σ : Schedule) (q : Word) : (s.setSchedule σ).memRead8 q = s.memRead8 q := rfl
@[simp] theorem State.memRead16_setSchedule (σ : Schedule) (q : Word) : (s.setSchedule σ).memRead16 q = s.memRead16 q := rfl

/-! ### `advance` -/

@[simp] theorem State.advance_eq : s.advance = s.setSchedule s.schedule.tail := rfl
@[simp] theorem State.setSchedule_self : s.setSchedule s.schedule = s := rfl
@[simp] theorem State.setSchedule_setSchedule (σ τ : Schedule) : (s.setSchedule σ).setSchedule τ = s.setSchedule τ := rfl
@[simp] theorem State.nextEvent_setSchedule (σ : Schedule) : (s.setSchedule σ).nextEvent = σ.head := rfl

/-! ### `fetched` -/

@[simp] theorem State.fetched_cfg : (s.fetched).cfg = s.cfg := rfl
@[simp] theorem State.fetched_v : (s.fetched).v = s.v := rfl
@[simp] theorem State.fetched_pc : (s.fetched).pc = s.pc + 2 := rfl
@[simp] theorem State.fetched_mar : (s.fetched).mar = s.pc := rfl
@[simp] theorem State.fetched_i : (s.fetched).i = s.i := rfl
@[simp] theorem State.fetched_dt : (s.fetched).dt = s.dt := rfl
@[simp] theorem State.fetched_st : (s.fetched).st = s.st := rfl
@[simp] theorem State.fetched_stack : (s.fetched).stack = s.stack := rfl
@[simp] theorem State.fetched_sp : (s.fetched).sp = s.sp := rfl
@[simp] theorem State.fetched_keys : (s.fetched).keys = s.keys := rfl
@[simp] theorem State.fetched_kprev : (s.fetched).kprev = s.kprev := rfl
@[simp] theorem State.fetched_watching : (s.fetched).watching = s.watching := rfl
@[simp] theorem State.fetched_cycle : (s.fetched).cycle = s.cycle := rfl
@[simp] theorem State.fetched_mem : (s.fetched).mem = s.mem := rfl
@[simp] theorem State.fetched_display : (s.fetched).display = s.display := rfl
@[simp] theorem State.fetched_paused : (s.fetched).paused = s.paused := rfl
@[simp] theorem State.fetched_stopped : (s.fetched).stopped = s.stopped := rfl
@[simp] theorem State.fetched_draws : (s.fetched).draws = s.draws := rfl
@[simp] theorem State.fetched_schedule : (s.fetched).schedule = s.schedule := rfl
@[simp] theorem State.getV_fetched (q : Reg) : (s.fetched).getV q = s.getV q := rfl
@[simp] theorem State.byteAt_fetched (q : Nat) : (s.fetched).byteAt q = s.byteAt q := rfl
@[simp] theorem State.memRead8_fetched (q : Word) : (s.fetched).memRead8 q = s.memRead8 q := rfl
@[simp] theorem State.memRead16_fetched (q : Word) : (s.fetched).memRead16 q = s.memRead16 q := rfl

/-! ### `counted` -/

@[simp] theorem State.counted_cfg : (s.counted).cfg = s.cfg := rfl
@[simp] theorem State.counted_v : (s.counted).v = s.v := rfl
@[simp] theorem State.counted_pc : (s.counted).pc = s.pc := rfl
@[simp] theorem State.counted_mar : (s.counted).mar = s.mar := rfl
@[simp] theorem State.counted_i : (s.counted).i = s.i := rfl
@[simp] theorem State.counted_dt : (s.counted).dt = s.dt := rfl
@[simp] theorem State.counted_st : (s.counted).st = s.st := rfl
@[simp] theorem State.counted_stack : (s.counted).stack = s.stack := rfl
@[simp] theorem State.counted_sp : (s.counted).sp = s.sp := rfl
@[simp] theorem State.counted_keys : (s.counted).keys = s.keys := rfl
@[simp] theorem State.counted_kprev : (s.counted).kprev = s.kprev := rfl
@[simp] theorem State.counted_watching : (s.counted).watching = s.watching := rfl
@[simp] theorem State.counted_cycle : (s.counted).cycle = s.cycle + 1 := rfl
@[simp] theorem State.counted_mem : (s.counted).mem = s.mem := rfl
@[simp] theorem State.counted_display : (s.counted).display = s.display := rfl
@[simp] theorem State.counted_paused : (s.counted).paused = s.paused := rfl
@[simp] theorem State.counted_stopped : (s.counted).stopped = s.stopped := rfl
@[simp] theorem State.counted_draws : (s.counted).draws = s.draws := rfl
@[simp] theorem State.counted_schedule : (s.counted).schedule = s.schedule := rfl
@[simp] theorem State.getV_counted (q : Reg) : (s.counted).getV q = s.getV q := rfl
@[simp] theorem State.byteAt_counted (q : Nat) : (s.counted).byteAt q = s.byteAt q := rfl
@[simp] theorem State.memRead8_counted (q : Word) : (s.counted).memRead8 q = s.memRead8 q := rfl
@[simp] theorem State.memRead16_counted (q : Word) : (s.counted).memRead16 q = s.memRead16 q := rfl

end Sys2Proof.Machine
end

