-- ==== Sys2Proof/Laws/Ops.lean ====
section
/-! SUPPORT. One lemma for each shared operation that says everything it does: registers, byte order, memory, block
transfers, display bytes, stack. -/

namespace Sys2Proof.Machine

variable {s : State}

/-! ### Registers (10_state.md R8) -/

/-- A register read after a register write. -/
@[simp] theorem State.getV_setV (r q : Reg) (b : Byte) : (s.setV r b).getV q = if q = r then b else s.getV q := by
  simp only [State.getV, State.setV, Fin.getElem_fin, Vector.getElem_set, ← Fin.ext_iff, eq_comm (a := r)]

/-- The registers after a result and then a flag: the flag is written last. -/
@[simp] theorem State.getV_setResultFlag (x q : Reg) (b : Byte) (f : Bool) :
    (s.setResultFlag x b f).getV q = if q = Reg.vf then flagByte f else if q = x then b else s.getV q := by
  simp [State.setResultFlag]

/-! ### Byte order (20_memory.md R40) -/

theorem joinBytes_toNat (hi lo : Byte) : (joinBytes hi lo).toNat = hi.toNat * 256 + lo.toNat := by
  have hlo : lo.toNat < 2 ^ 8 := lo.isLt
  have hhi : hi.toNat < 2 ^ 8 := hi.isLt
  have h := Nat.two_pow_add_eq_or_of_lt hlo hi.toNat
  simp only [joinBytes, BitVec.toNat_or, BitVec.toNat_shiftLeft, BitVec.toNat_setWidth, Nat.shiftLeft_eq]
  rw [Nat.mod_eq_of_lt (a := hi.toNat) (by omega), Nat.mod_eq_of_lt (a := lo.toNat) (by omega),
    Nat.mod_eq_of_lt (a := hi.toNat * 2 ^ 8) (by omega), Nat.mul_comm, ← h, Nat.mul_comm]

theorem highByte_toNat (w : Word) : (highByte w).toNat = w.toNat / 256 := by
  have := w.isLt
  simp only [highByte, BitVec.extractLsb'_toNat, Nat.shiftRight_eq_div_pow]
  omega

theorem lowByte_toNat (w : Word) : (lowByte w).toNat = w.toNat % 256 := by
  simp only [lowByte, BitVec.extractLsb'_toNat, Nat.shiftRight_eq_div_pow]
  omega

/-- The two bytes of a word joined again are the word. -/
@[simp] theorem joinBytes_high_low (w : Word) : joinBytes (highByte w) (lowByte w) = w := by
  apply BitVec.eq_of_toNat_eq
  rw [joinBytes_toNat, highByte_toNat, lowByte_toNat]
  omega

@[simp] theorem highByte_joinBytes (hi lo : Byte) : highByte (joinBytes hi lo) = hi := by
  apply BitVec.eq_of_toNat_eq
  rw [highByte_toNat, joinBytes_toNat]
  have := lo.isLt
  omega

@[simp] theorem lowByte_joinBytes (hi lo : Byte) : lowByte (joinBytes hi lo) = lo := by
  apply BitVec.eq_of_toNat_eq
  rw [lowByte_toNat, joinBytes_toNat]
  have := lo.isLt
  omega

/-! ### Memory (20_memory.md R32-R35) -/

/-- The bytes of memory after a byte write: the written byte at its address if that is in range, else as before. -/
theorem State.byteAt_memWrite8 (h : s.wf) (a : Word) (b : Byte) (c : Nat) :
    (s.memWrite8 a b).byteAt c = if c = a.toNat ∧ a.toNat < s.cfg.memSize then b else s.byteAt c := by
  by_cases ha : a.toNat < s.cfg.memSize
  · simp only [State.memWrite8, State.byteAt, State.setMem_mem, State.setMem_cfg, if_true, Memory.read_write h.2.1.1, ha,
      and_true]
  · simp only [State.memWrite8, State.byteAt, State.setMem_mem, State.setMem_cfg, ha, and_false, if_false]

/-- A byte read after a byte write (R32, R34, R50). -/
theorem State.memRead8_memWrite8 (h : s.wf) (a c : Word) (b : Byte) :
    (s.memWrite8 a b).memRead8 c = if c = a ∧ a.toNat < s.cfg.memSize then b else s.memRead8 c := by
  simp only [State.memRead8, State.memWrite8_cfg, State.byteAt_memWrite8 h, ← BitVec.toNat_inj]
  split_ifs <;> first | rfl | omega

/-- A byte write keeps the state well formed. -/
theorem State.wf_memWrite8 (h : s.wf) (a : Word) (b : Byte) : (s.memWrite8 a b).wf := by
  refine ⟨h.1, ?_, h.2.2⟩
  simp only [State.memWrite8, State.setMem_mem, State.setMem_cfg]
  split
  · exact Memory.write_wf ‹_› h.2.1
  · exact h.2.1

/-- A word write keeps the state well formed. -/
theorem State.wf_memWrite16 (h : s.wf) (a w : Word) : (s.memWrite16 a w).wf := by
  refine ⟨h.1, ?_, h.2.2⟩
  simp only [State.memWrite16, State.setMem_mem, State.setMem_cfg]
  split
  · exact Memory.write_wf ‹_› (Memory.write_wf (Nat.lt_of_succ_lt ‹_›) h.2.1)
  · exact h.2.1

/-- A word read after a word write of the same address (R33, R35, R50). -/
theorem State.memRead16_memWrite16 (hs : s.wf) {a : Word} (h : a.toNat + 1 < s.cfg.memSize) (w : Word) :
    (s.memWrite16 a w).memRead16 a = w := by
  have hm : (s.memWrite16 a w).mem =
      Memory.write s.cfg.fontTable (Memory.write s.cfg.fontTable s.mem a.toNat (highByte w)) (a.toNat + 1) (lowByte w) := by
    simp [State.memWrite16, h]
  have hc : (s.memWrite16 a w).cfg = s.cfg := rfl
  simp only [State.memRead16, hc, h, if_true, State.byteAt, hm, Memory.read_write (Memory.write_sorted hs.2.1.1),
    Memory.read_write hs.2.1.1]
  simp

/-- A word inside memory is its two bytes joined (R32, R33, R40). -/
theorem State.memRead16_eq_joinBytes (hs : s.wf) {a : Word} (h : a.toNat + 1 < s.cfg.memSize) :
    s.memRead16 a = joinBytes (s.memRead8 a) (s.memRead8 (a + 1)) := by
  have hm := hs.1.2.1
  have ha : (a + 1).toNat = a.toNat + 1 := by simp; omega
  simp only [State.memRead16, h, if_true, State.memRead8, ha, show a.toNat < s.cfg.memSize by omega]

/-- Storing a program's bytes keeps the canonical form. -/
theorem storeBytes_wf {c : Config} {m : List Host.Cell} {p : List Byte} {a : Nat} (h : Memory.wf c m)
    (ha : a + p.length ≤ c.memSize) : Memory.wf c (storeBytes c.fontTable m a p) := by
  induction p generalizing m a with
  | nil => exact h
  | cons b p ih =>
    rw [List.length_cons] at ha
    exact ih (Memory.write_wf (by omega) h) (by omega)

/-- A read after a program's bytes are stored from `a` on. -/
theorem read_storeBytes {c : Config} {m : List Host.Cell} {p : List Byte} {a : Nat}
    (h : m.Pairwise fun p q => p.1 < q.1) (x : Nat) :
    Memory.read c.fontTable (storeBytes c.fontTable m a p) x =
      if a ≤ x ∧ x < a + p.length then p.getD (x - a) 0x00 else Memory.read c.fontTable m x := by
  induction p generalizing m a with
  | nil => simp only [storeBytes, List.length_nil]; rw [if_neg (by omega)]
  | cons b p ih =>
    rw [storeBytes, ih (Memory.write_sorted h), Memory.read_write h, List.length_cons]
    by_cases hx : x = a
    · subst hx; rw [if_neg (by omega), if_pos rfl, if_pos (by omega)]; simp
    · by_cases hr : a + 1 ≤ x ∧ x < a + 1 + p.length
      · obtain ⟨k, rfl⟩ : ∃ k, x = a + 1 + k := ⟨x - (a + 1), by omega⟩
        rw [if_pos hr, if_pos (by omega), Nat.add_sub_cancel_left, show a + 1 + k - a = k + 1 by omega, List.getD_cons_succ]
      · rw [if_neg hr, if_neg hx, if_neg (by omega)]

/-! ### Operands and block transfers (20_memory.md R45, 43_index_and_memory.md R97-R99) -/

@[simp] theorem addr16_toNat (nnn : Addr12) : (addr16 nnn).toNat = nnn.toNat := by
  simp only [addr16, BitVec.toNat_setWidth]; omega

@[simp] theorem byte16_toNat (b : Byte) : (byte16 b).toNat = b.toNat := by
  simp only [byte16, BitVec.toNat_setWidth]; omega

theorem State.effAddr_toNat (s : State) (k : Nat) : (s.effAddr k).toNat = (s.i.toNat + k) % 2 ^ 16 := by
  simp [State.effAddr]

/-- The offset of an effective address from I is its access number. -/
theorem State.effAddr_sub (s : State) {k : Nat} (hk : k < 2 ^ 16) : (s.effAddr k - s.i).toNat = k := by
  simp only [State.effAddr, BitVec.toNat_sub, BitVec.toNat_add, BitVec.toNat_ofNat]; omega

/-- The effective addresses of one instruction are all different. -/
theorem State.effAddr_inj (s : State) {j k : Nat} (hj : j < 16) (hk : k < 16) : s.effAddr j = s.effAddr k ↔ j = k := by
  rw [← BitVec.toNat_inj, s.effAddr_toNat, s.effAddr_toNat]; omega

@[simp] theorem regOf_val (r : Reg) : regOf r.val = r := by simp [regOf]

theorem eq_regOf_iff {r : Reg} {k : Nat} (hk : k < 16) : r = regOf k ↔ r.val = k := by
  rw [Fin.ext_iff]; simp only [regOf, Fin.val_ofNat, Nat.mod_eq_of_lt hk]

/-- The store loop writes memory only, keeps the state well formed, and stores V0 to V(n-1) at I, I+1, ... (R97). -/
theorem State.storeRegs_spec (hs : s.wf) {n : Nat} (hn : n ≤ 16) :
    (s.storeRegs n).wf ∧ s.storeRegs n = s.setMem (s.storeRegs n).mem ∧
    ∀ a, (s.storeRegs n).memRead8 a =
      if a.toNat < s.cfg.memSize ∧ ∃ k < n, a = s.effAddr k then s.getV (regOf (a - s.i).toNat) else s.memRead8 a := by
  induction n with
  | zero => exact ⟨hs, rfl, by simp [State.storeRegs]⟩
  | succ n ih =>
    obtain ⟨hw, he, hr⟩ := ih (by omega)
    refine ⟨State.wf_memWrite8 hw _ _, ?_, fun a => ?_⟩
    · conv_lhs => rw [State.storeRegs, he]
      rw [State.storeRegs, he]; rfl
    · have hc : (s.storeRegs n).cfg = s.cfg := by rw [he]; rfl
      rw [State.storeRegs, State.memRead8_memWrite8 hw, hr, hc]
      by_cases ha : a = s.effAddr n
      · subst ha
        rw [s.effAddr_sub (by omega)]
        by_cases hm : (s.effAddr n).toNat < s.cfg.memSize
        · rw [if_pos ⟨rfl, hm⟩, if_pos ⟨hm, n, by omega, rfl⟩]
        · simp only [hm, and_false, false_and, if_false]
      · simp only [ha, false_and, if_false]
        congr 1
        refine propext (and_congr_right fun _ => ⟨?_, ?_⟩)
        · rintro ⟨k, hk, rfl⟩; exact ⟨k, by omega, rfl⟩
        · rintro ⟨k, hk, rfl⟩
          have : k ≠ n := fun h => ha (h ▸ rfl)
          exact ⟨k, by omega, rfl⟩

/-- The load loop writes registers only, and loads V0 to V(n-1) from I, I+1, ... (R98). -/
theorem State.loadRegs_spec (s : State) {n : Nat} (hn : n ≤ 16) :
    s.loadRegs n = { s with v := (s.loadRegs n).v } ∧
    ∀ r : Reg, (s.loadRegs n).getV r = if r.val < n then s.memRead8 (s.effAddr r.val) else s.getV r := by
  induction n with
  | zero => exact ⟨rfl, by simp [State.loadRegs]⟩
  | succ n ih =>
    obtain ⟨he, hr⟩ := ih (by omega)
    refine ⟨?_, fun r => ?_⟩
    · rw [State.loadRegs]
      conv_lhs => rw [he]
      rfl
    · rw [State.loadRegs, State.getV_setV, hr]
      simp only [eq_regOf_iff (show n < 16 by omega)]
      split_ifs with h1 h2 h3 h4 <;> first | rfl | omega | rw [h1]

/-! ### Display (20_memory.md R36, R37) -/

/-- A display write keeps the number of display bytes. -/
@[simp] theorem dispWrite_length (c : Config) (d : List Byte) (j : Nat) (b : Byte) :
    (dispWrite c d j b).length = d.length := by
  unfold dispWrite; split <;> simp

/-- A display byte read after a display byte write. -/
theorem dispRead_dispWrite {c : Config} {d : List Byte} (h : d.length = c.dispBytes) (j k : Nat) (b : Byte) :
    dispRead c (dispWrite c d j b) k = if k = j ∧ j < c.dispBytes then b else dispRead c d k := by
  simp only [dispRead, dispWrite]
  by_cases hj : j < c.dispBytes
  · by_cases hkj : k = j
    · subst hkj; simp [hj, h, List.getD_eq_getElem?_getD]
    · simp [hj, hkj, List.getD_eq_getElem?_getD, List.getElem?_set_ne (Ne.symm hkj)]
  · simp [hj]

/-! ### Stack (20_memory.md R38, R39) -/

/-- A push keeps the state well formed. -/
theorem State.wf_push (h : s.wf) (w : Word) : (s.push w).wf := by
  obtain ⟨hc, hm, hl, hsp, hd⟩ := h
  refine ⟨hc, hm, ?_, ?_, hd⟩ <;> simp only [State.push, State.setStack_stack, State.setStack_sp, State.setStack_cfg] <;> split <;>
    simp_all

/-- A pop keeps the state well formed. -/
theorem State.wf_pop (h : s.wf) : s.pop.wf := by
  obtain ⟨hc, hm, hl, hsp, hd⟩ := h
  exact ⟨hc, hm, hl, Nat.le_trans (Nat.sub_le _ _) hsp, hd⟩

/-- A pop after a push that was not dropped gives the value back and the old stack pointer. -/
theorem State.pop_push (h : s.wf) (w : Word) (hsp : s.sp < s.cfg.stackDepth) :
    (s.push w).popValue = w ∧ (s.push w).pop.sp = s.sp := by
  have hl : s.sp < s.stack.length := h.2.2.1 ▸ hsp
  simp [State.popValue, State.push, State.pop, State.setStack, hsp, List.getD_eq_getElem?_getD, hl]

/-- A key number below 16 names a key. -/
theorem State.keyAt_of_lt {b : Byte} (h : b.toNat < 16) : s.keyAt b = some s.keys[b.toNat] := by
  simp [State.keyAt, h]

/-- A value of 16 or more names no key. -/
theorem State.keyAt_of_ge {b : Byte} (h : 16 ≤ b.toNat) : s.keyAt b = none := by
  simp only [State.keyAt]; exact Vector.getElem?_eq_none h

end Sys2Proof.Machine
end

