-- ==== Sys2Proof/Laws/Step.lean ====
section
/-! SUPPORT. What a step can do: the inversion of the step, of one event, and of the core's step (40_step_and_dispatch.md R61,
60_exceptions.md R138). -/

namespace Sys2Proof.Machine

variable {s t : State}

/-- The core's step answers a next state in two ways: it stands still while paused or stopped, or it executes the fetched
instruction and counts the step. -/
theorem coreStep_next_cases (h : coreStep s = .next t) :
    (s.running = false ∧ t = s) ∨
    (s.running = true ∧ ∃ u, exec (decodeWord (s.memRead16 s.pc)) s.fetched = .next u ∧ t = u.counted) := by
  unfold coreStep at h
  split at h
  · refine .inr ⟨‹_›, ?_⟩
    unfold countStep at h
    split at h
    · exact ⟨_, ‹_›, (Host.Outcome.next.inj h).symm⟩
    · cases h
    · cases h
  · exact .inl ⟨by simpa using ‹¬s.running = true›, (Host.Outcome.next.inj h).symm⟩

/-- One event answers a next state in one way for each event. -/
theorem applyEvent_next_cases {e : Event} (h : applyEvent e s = .next t) :
    (e = .coreStep ∧ coreStep s = .next t) ∨
    (e = .timerTick ∧ t = if s.running then s.timerTick else s) ∨
    (∃ k b, e = .setKeyState k b ∧ t = s.setKeyState k b) ∨
    (e = .pause ∧ t = s.setPaused true) ∨ (e = .resume ∧ t = s.setPaused false) ∨ (e = .stop ∧ t = s.stop) := by
  cases e with
  | coreStep => exact .inl ⟨rfl, h⟩
  | timerTick => exact .inr (.inl ⟨rfl, (Host.Outcome.next.inj h).symm⟩)
  | setKeyState k b => exact .inr (.inr (.inl ⟨k, b, rfl, (Host.Outcome.next.inj h).symm⟩))
  | pause => exact .inr (.inr (.inr (.inl ⟨rfl, (Host.Outcome.next.inj h).symm⟩)))
  | resume => exact .inr (.inr (.inr (.inr (.inl ⟨rfl, (Host.Outcome.next.inj h).symm⟩))))
  | stop => exact .inr (.inr (.inr (.inr (.inr ⟨rfl, (Host.Outcome.next.inj h).symm⟩))))

/-- The step is the next event's. -/
theorem step_of_nextEvent {e : Event} (h : s.nextEvent = e) : step s = applyEvent e s.advance := by rw [step, h]

/-- Whatever event the schedule names next happens. -/
theorem step_cons (e : Event) (σ : Schedule) : step (s.setSchedule (.cons e σ)) = applyEvent e (s.setSchedule σ) := rfl

/-- No instruction is refused. -/
theorem exec_ne_refused {i : Instr} {r : Refusal} : exec i s ≠ .refused r := by
  cases i with
  | ret x => simp only [exec, execRet]; split <;> nofun
  | drw x y n => simp only [exec, execDrw]; split <;> nofun
  | skp x => simp only [exec, execSkp]; split <;> nofun
  | sknp x => simp only [exec, execSknp]; split <;> nofun
  | ldVxK x => simp only [exec, execLdVxK]; split <;> [(split <;> nofun); nofun]
  | ldF x => simp only [exec, execLdF]; split <;> nofun
  | _ => nofun
/-- No event of a run is refused: a refusal belongs to a launch (70_reset_and_hazards.md R143). -/
theorem applyEvent_ne_refused {e : Event} {r : Refusal} : applyEvent e s ≠ .refused r := by
  cases e with
  | coreStep =>
    simp only [applyEvent, coreStep, countStep]
    split
    · split <;> [nofun; nofun; (rename_i h; exact absurd h exec_ne_refused)]
    · nofun
  | _ => nofun

/-- While the core runs, its step is the fetched instruction's meaning with the step counted. -/
theorem coreStep_of_running (h : s.running = true) :
    coreStep s = countStep (exec (decodeWord (s.memRead16 s.pc)) s.fetched) := by
  simp only [coreStep, h, if_true]

/-- Where the core's step is the next event and the core runs, the step is the fetched instruction's meaning with the step
counted and the event off the schedule. -/
theorem step_of_running (h : s.nextEvent = .coreStep) (hr : s.running = true) :
    step s = countStep (exec (decodeWord (s.memRead16 s.pc)) s.advance.fetched) := by
  rw [step_of_nextEvent h]; exact coreStep_of_running (s := s.advance) hr

theorem State.running_of (hp : s.paused = false) (hs : s.stopped = false) : s.running = true := by
  rw [State.running, hp, hs]; rfl

/-- The configuration's bytes per row times the rows are its display bytes. -/
theorem bytesPerRow_mul {c : Config} (h : c.wf) : c.bytesPerRow * c.dispH = c.dispBytes := by
  have hw : c.dispW = 8 * c.bytesPerRow := by
    have := h.2.2.2.1
    unfold Config.bytesPerRow
    omega
  unfold Config.dispBytes
  rw [hw, Nat.mul_assoc, Nat.mul_div_cancel_left _ (by decide)]

end Sys2Proof.Machine
end

