-- ==== Sys2Proof/Laws/Display.lean ====
section
/-! SUPPORT. The sprite blitter one row at a time: the bits of the window, the pixels a row flips, and when a row collides
(44_display.md R102-R107). -/

namespace Sys2Proof.Machine

variable {c : Config}

/-! ### Rows and bytes of the display (10_state.md R23) -/

/-- A row has 8 pixels for each of its bytes. -/
theorem dispW_eq (hc : c.wf) : c.dispW = 8 * c.bytesPerRow := by
  have := hc.2.2.2.1
  unfold Config.bytesPerRow; omega

/-- A row and a byte column determine each other's byte index. -/
theorem rowCol_inj {n a b p q : Nat} (ha : a < n) (hb : b < n) : p * n + a = q * n + b ↔ p = q ∧ a = b := by
  refine ⟨fun h => ?_, by rintro ⟨rfl, rfl⟩; rfl⟩
  have hn : n > 0 := by omega
  have hdiv := congrArg (· / n) h
  have hmod := congrArg (· % n) h
  simp only [Nat.mul_comm _ n, Nat.mul_add_div hn, Nat.mul_add_mod, Nat.div_eq_of_lt ha, Nat.div_eq_of_lt hb,
    Nat.mod_eq_of_lt ha, Nat.mod_eq_of_lt hb] at hdiv hmod
  omega

/-- A byte column of a screen row is a display byte. -/
theorem rowCol_lt (hc : c.wf) {row col : Nat} (hr : row < c.dispH) (hcol : col < c.bytesPerRow) :
    row * c.bytesPerRow + col < c.dispBytes := by
  rw [← bytesPerRow_mul hc, Nat.mul_comm c.bytesPerRow]
  calc row * c.bytesPerRow + col < row * c.bytesPerRow + c.bytesPerRow := by omega
    _ = (row + 1) * c.bytesPerRow := by ring
    _ ≤ c.dispH * c.bytesPerRow := Nat.mul_le_mul_right _ hr

/-! ### The number of display bytes -/

@[simp] theorem xorByte_length (j : Nat) (b : Byte) (t : Blit) : (xorByte c j b t).display.length = t.display.length := by
  simp [xorByte]

@[simp] theorem blitRow_length (py px : Nat) (b : Byte) (t : Blit) :
    (blitRow c py px b t).display.length = t.display.length := by
  simp only [blitRow]; split_ifs <;> simp

@[simp] theorem State.blit_length (s : State) (x y n : Nat) : (s.blit x y n).display.length = s.display.length := by
  induction n with
  | zero => rfl
  | succ n ih => rw [State.blit]; split <;> simp [ih]

/-! ### The window (44_display.md R106) -/

/-- Pixel `q` of the window's first byte is pixel `q - px mod 8` of the sprite byte. -/
theorem highByte_spriteWindow (b : Byte) (px : Nat) {q : Nat} (hq : q < 8) :
    (highByte (spriteWindow b px)).getLsbD (7 - q) = (decide (px % 8 ≤ q) && b.getLsbD (7 - (q - px % 8))) := by
  have hp : px % 8 < 8 := Nat.mod_lt _ (by omega)
  simp only [highByte, spriteWindow]
  generalize px % 8 = k at *
  rw [BitVec.getLsbD_extractLsb', BitVec.getLsbD_ushiftRight, BitVec.getLsbD_shiftLeft, BitVec.getLsbD_setWidth]
  by_cases h : k ≤ q
  · rw [show k + (8 + (7 - q)) - 8 = 7 - (q - k) by omega]
    simp [h, show 7 - q < 8 by omega, show k + (8 + (7 - q)) < 16 by omega, show 7 - (q - k) < 16 by omega]; omega
  · simp [h]; intros; apply BitVec.getLsbD_of_ge; omega

/-- Pixel `q` of the window's second byte is pixel `8 + q - px mod 8` of the sprite byte. -/
theorem lowByte_spriteWindow (b : Byte) (px : Nat) {q : Nat} (hq : q < 8) :
    (lowByte (spriteWindow b px)).getLsbD (7 - q) = (decide (q < px % 8) && b.getLsbD (7 - (8 + q - px % 8))) := by
  have hp : px % 8 < 8 := Nat.mod_lt _ (by omega)
  simp only [lowByte, spriteWindow]
  generalize px % 8 = k at *
  rw [BitVec.getLsbD_extractLsb', BitVec.getLsbD_ushiftRight, BitVec.getLsbD_shiftLeft, BitVec.getLsbD_setWidth]
  by_cases h : q < k
  · rw [show k + (0 + (7 - q)) - 8 = 7 - (8 + q - k) by omega]
    simp [h, show 7 - q < 8 by omega, show k + (7 - q) < 16 by omega, show 7 - (8 + q - k) < 16 by omega]; omega
  · simp [h]; omega

/-- No pixel of a display byte comes from both bytes of a window. -/
theorem spriteWindow_disjoint (b : Byte) {px0 px : Nat} (h : px / 8 = px0 / 8)
    (hi : (highByte (spriteWindow b px0)).getLsbD (7 - px % 8) = true) :
    (lowByte (spriteWindow b px0)).getLsbD (7 - px % 8) = false := by
  have hq : px % 8 < 8 := Nat.mod_lt _ (by omega)
  rw [highByte_spriteWindow _ _ hq] at hi
  rw [lowByte_spriteWindow _ _ hq]
  simp only [Bool.and_eq_true, decide_eq_true_eq] at hi
  simp only [Bool.and_eq_false_iff, decide_eq_false_iff_not]
  omega

/-! ### One byte (44_display.md R107) -/

/-- A pixel after a byte has been XORed in. -/
theorem pixelOf_xorByte {t : Blit} (hl : t.display.length = c.dispBytes) (j : Nat) (b : Byte) (px py : Nat) :
    pixelOf c (xorByte c j b t).display px py = (pixelOf c t.display px py ^^
      (decide (py * c.bytesPerRow + px / 8 = j ∧ j < c.dispBytes) && b.getLsbD (7 - px % 8))) := by
  simp only [pixelOf, xorByte, dispRead_dispWrite hl]
  by_cases h : py * c.bytesPerRow + px / 8 = j ∧ j < c.dispBytes
  · rw [if_pos h, BitVec.getLsbD_xor]; simp [h]
  · rw [if_neg h]; simp [h]

theorem and_ne_zero_iff (a b : Byte) :
    ((a &&& b) != 0) = true ↔ ∃ q < 8, a.getLsbD (7 - q) = true ∧ b.getLsbD (7 - q) = true := by
  rw [bne_iff_ne, ne_eq, not_iff_comm]
  constructor
  · intro h
    apply BitVec.eq_of_getLsbD_eq
    intro i hi
    have := fun h1 => h ⟨7 - i, by omega, h1⟩
    rw [show 7 - (7 - i) = i by omega] at this
    simpa using this
  · rintro h ⟨q, hq, h1, h2⟩
    have := congrArg (·.getLsbD (7 - q)) h
    simp [h1, h2] at this

/-- A byte collides when one of its pixels is on in the display and in the byte. -/
theorem dispRead_and_ne_zero (hc : c.wf) {d : List Byte} {row col : Nat} (hcol : col < c.bytesPerRow) (b : Byte) :
    ((dispRead c d (row * c.bytesPerRow + col) &&& b) != 0) = true ↔
      ∃ px < c.dispW, px / 8 = col ∧ pixelOf c d px row = true ∧ b.getLsbD (7 - px % 8) = true := by
  rw [and_ne_zero_iff]
  have hW := dispW_eq hc
  constructor
  · rintro ⟨q, hq, h1, h2⟩
    refine ⟨8 * col + q, by omega, by omega, ?_, ?_⟩
    · rw [pixelOf, show (8 * col + q) / 8 = col by omega, show (8 * col + q) % 8 = q by omega]; exact h1
    · rw [show (8 * col + q) % 8 = q by omega]; exact h2
  · rintro ⟨px, h1, rfl, h2, h3⟩
    exact ⟨px % 8, by omega, h2, h3⟩

/-! ### One row (44_display.md R102, R104, R105) -/

/-- The byte column of the window's second byte, if it is drawn. -/
def secondCol (c : Config) (col : Nat) : Option Nat :=
  if col + 1 < c.bytesPerRow then some (col + 1) else if c.drawWrap then some 0 else none

theorem secondCol_lt {col k : Nat} (hcol : col < c.bytesPerRow) (h : secondCol c col = some k) : k < c.bytesPerRow := by
  unfold secondCol at h
  split at h
  · cases h; assumption
  · split at h <;> cases h
    omega

/-- A row is one byte XORed in, or two. -/
theorem blitRow_eq (py px : Nat) (b : Byte) (t : Blit) :
    blitRow c py px b t =
      match secondCol c (px / 8) with
      | some col => xorByte c (py * c.bytesPerRow + col) (lowByte (spriteWindow b px))
          (xorByte c (py * c.bytesPerRow + px / 8) (highByte (spriteWindow b px)) t)
      | none => xorByte c (py * c.bytesPerRow + px / 8) (highByte (spriteWindow b px)) t := by
  simp only [blitRow, secondCol]
  split
  · rfl
  · split <;> rfl

/-- The sprite byte `b`, drawn at screen column `px0`, has a pixel on at screen column `px`. -/
def rowCovers (c : Config) (px0 : Nat) (b : Byte) (px : Nat) : Prop :=
  ∃ k < 8, b.getLsbD (7 - k) = true ∧ if c.drawWrap then (px0 + k) % c.dispW = px else px0 + k = px

theorem rowCovers_iff (hc : c.wf) {px0 px : Nat} (h0 : px0 < c.dispW) (h1 : px < c.dispW) (b : Byte) :
    rowCovers c px0 b px ↔
      (px / 8 = px0 / 8 ∧ (highByte (spriteWindow b px0)).getLsbD (7 - px % 8) = true) ∨
      (secondCol c (px0 / 8) = some (px / 8) ∧ (lowByte (spriteWindow b px0)).getLsbD (7 - px % 8) = true) := by
  have hW := dispW_eq hc
  have hq : px % 8 < 8 := Nat.mod_lt _ (by omega)
  rw [highByte_spriteWindow _ _ hq, lowByte_spriteWindow _ _ hq]
  simp only [Bool.and_eq_true, decide_eq_true_eq]
  unfold rowCovers secondCol
  constructor
  · rintro ⟨k, hk, hb, hh⟩
    by_cases hlt : px0 + k < c.dispW
    · have : px0 + k = px := by
        split at hh
        · rwa [Nat.mod_eq_of_lt hlt] at hh
        · exact hh
      subst this
      by_cases hd : px0 % 8 + k < 8
      · refine .inl ⟨by omega, by omega, ?_⟩
        rw [show (px0 + k) % 8 - px0 % 8 = k by omega]; exact hb
      · refine .inr ⟨?_, by omega, ?_⟩
        · rw [if_pos (by omega)]; congr 1; omega
        · rw [show 8 + (px0 + k) % 8 - px0 % 8 = k by omega]; exact hb
    · split at hh
      · rename_i hwrap
        rw [Nat.mod_eq_sub_mod (by omega), Nat.mod_eq_of_lt (by omega)] at hh
        refine .inr ⟨?_, by omega, ?_⟩
        · rw [if_neg (by omega), if_pos hwrap]; congr 1; omega
        · rw [show 8 + px % 8 - px0 % 8 = k by omega]; exact hb
      · omega
  · rintro (⟨h2, h3, hb⟩ | ⟨h2, h3, hb⟩)
    · refine ⟨_, by omega, hb, ?_⟩
      rw [show px0 + (px % 8 - px0 % 8) = px by omega, Nat.mod_eq_of_lt h1]; simp
    · refine ⟨_, by omega, hb, ?_⟩
      split at h2
      · have h2 := Option.some.inj h2
        rw [show px0 + (8 + px % 8 - px0 % 8) = px by omega, Nat.mod_eq_of_lt h1]; simp
      · split at h2
        · have h2 := Option.some.inj h2
          rename_i hwrap _
          rw [if_pos hwrap, Nat.mod_eq_sub_mod (by omega), Nat.mod_eq_of_lt (by omega)]; omega
        · cases h2

theorem xor_xor_eq_true {p a b : Bool} {q : Prop} (h : a = true → b = false) (hq : q ↔ a = true ∨ b = true) :
    ((p ^^ a) ^^ b) = true ↔ Xor (p = true) q := by
  rw [hq]; cases p <;> cases a <;> cases b <;> simp [Xor] at *

/-- A pixel after a row has been drawn: the row flips the pixels it covers. -/
theorem pixelOf_blitRow (hc : c.wf) {t : Blit} (hl : t.display.length = c.dispBytes) {py0 px0 : Nat} (hpy : py0 < c.dispH)
    (hpx : px0 < c.dispW) (b : Byte) {px : Nat} (py : Nat) (h1 : px < c.dispW) :
    pixelOf c (blitRow c py0 px0 b t).display px py = true ↔
      Xor (pixelOf c t.display px py = true) (py = py0 ∧ rowCovers c px0 b px) := by
  have hW := dispW_eq hc
  have hx : px / 8 < c.bytesPerRow := by omega
  have hx0 : px0 / 8 < c.bytesPerRow := by omega
  have hj0 := rowCol_lt hc hpy hx0
  rw [blitRow_eq, rowCovers_iff hc hpx h1]
  cases hs : secondCol c (px0 / 8) with
  | none =>
    simp only
    rw [pixelOf_xorByte hl, ← Bool.xor_false (pixelOf c t.display px py ^^ _)]
    apply xor_xor_eq_true (by simp)
    simp [rowCol_inj hx hx0, hj0, and_assoc]
  | some col =>
    have hcol := secondCol_lt hx0 hs
    have hj1 := rowCol_lt hc hpy hcol
    simp only
    rw [pixelOf_xorByte (by simpa using hl), pixelOf_xorByte hl]
    apply xor_xor_eq_true
    · simp only [Bool.and_eq_true, decide_eq_true_eq, rowCol_inj hx hx0, rowCol_inj hx hcol]
      rintro ⟨⟨⟨-, h2⟩, -⟩, h3⟩
      rw [spriteWindow_disjoint b h2 h3, Bool.and_false]
    · simp only [Bool.and_eq_true, decide_eq_true_eq, rowCol_inj hx hx0, rowCol_inj hx hcol, hj0, hj1, and_true,
        Option.some.injEq, eq_comm (a := col)]
      tauto

/-- A row collides when it covers a pixel that is on. -/
theorem blitRow_collided (hc : c.wf) {t : Blit} (hl : t.display.length = c.dispBytes) {py0 px0 : Nat} (hpy : py0 < c.dispH)
    (hpx : px0 < c.dispW) (b : Byte) :
    (blitRow c py0 px0 b t).collided = true ↔
      t.collided = true ∨ ∃ px < c.dispW, pixelOf c t.display px py0 = true ∧ rowCovers c px0 b px := by
  have hW := dispW_eq hc
  have hx0 : px0 / 8 < c.bytesPerRow := by omega
  have hj0 := rowCol_lt hc hpy hx0
  have hcovers : (∃ px < c.dispW, pixelOf c t.display px py0 = true ∧ rowCovers c px0 b px) ↔
      ∃ px < c.dispW, pixelOf c t.display px py0 = true ∧
        ((px / 8 = px0 / 8 ∧ (highByte (spriteWindow b px0)).getLsbD (7 - px % 8) = true) ∨
          (secondCol c (px0 / 8) = some (px / 8) ∧ (lowByte (spriteWindow b px0)).getLsbD (7 - px % 8) = true)) :=
    exists_congr fun px => and_congr_right fun h => by rw [rowCovers_iff hc hpx h]
  have hxor : ∀ (j : Nat) (d : Byte) (u : Blit),
      (xorByte c j d u).collided = (u.collided || (dispRead c u.display j &&& d) != 0) := fun _ _ _ => rfl
  rw [blitRow_eq, hcovers]
  cases hs : secondCol c (px0 / 8) with
  | none =>
    simp only [hxor, Bool.or_eq_true, dispRead_and_ne_zero hc hx0]
    apply or_congr_right; apply exists_congr; intro px; simp; tauto
  | some col =>
    have hcol := secondCol_lt hx0 hs
    -- where the second byte has a pixel on, the first byte left the display pixel as it was
    have hkeep : ∀ px < c.dispW, (lowByte (spriteWindow b px0)).getLsbD (7 - px % 8) = true →
        pixelOf c (xorByte c (py0 * c.bytesPerRow + px0 / 8) (highByte (spriteWindow b px0)) t).display px py0 =
          pixelOf c t.display px py0 := by
      intro px hp hlo
      rw [pixelOf_xorByte hl]
      simp only [rowCol_inj (show px / 8 < c.bytesPerRow by omega) hx0, hj0, and_true, true_and]
      by_cases h5 : px / 8 = px0 / 8
      · cases hhi : (highByte (spriteWindow b px0)).getLsbD (7 - px % 8) with
        | false => simp
        | true => rw [spriteWindow_disjoint b h5 hhi] at hlo; cases hlo
      · simp [h5]
    simp only [hxor, Bool.or_eq_true, dispRead_and_ne_zero hc hx0, dispRead_and_ne_zero hc hcol, or_assoc]
    apply or_congr_right
    constructor
    · rintro (⟨px, h1, h2, h3, h4⟩ | ⟨px, h1, h2, h3, h4⟩)
      · exact ⟨px, h1, h3, .inl ⟨h2, h4⟩⟩
      · exact ⟨px, h1, hkeep px h1 h4 ▸ h3, .inr ⟨by rw [h2], h4⟩⟩
    · rintro ⟨px, h1, h3, ⟨h2, h4⟩ | ⟨h2, h4⟩⟩
      · exact .inl ⟨px, h1, h2, h3, h4⟩
      · exact .inr ⟨px, h1, (Option.some.inj h2).symm, (hkeep px h1 h4).trans h3, h4⟩

end Sys2Proof.Machine
end

