-- ==== Sys2Proof/Laws/PerInstr.lean ====
section
/-! SUPPORT. The family `Row`: the word of an instruction selects the row of 30_encoding.md R55 that the instruction is. -/

namespace Sys2Proof.Laws

/-- The row of 30_encoding.md R55 that an instruction is; an ignored word has none. -/
def Row.rowOf : Instr → Option OpcodeRow
  | .cls _ => some ⟨0xF0FF#16, 0x00E0#16⟩
  | .ret _ => some ⟨0xF0FF#16, 0x00EE#16⟩
  | .jp _ => some ⟨0xF000#16, 0x1000#16⟩
  | .call _ => some ⟨0xF000#16, 0x2000#16⟩
  | .seByte _ _ => some ⟨0xF000#16, 0x3000#16⟩
  | .sneByte _ _ => some ⟨0xF000#16, 0x4000#16⟩
  | .seReg _ _ _ => some ⟨0xF000#16, 0x5000#16⟩
  | .ldByte _ _ => some ⟨0xF000#16, 0x6000#16⟩
  | .addByte _ _ => some ⟨0xF000#16, 0x7000#16⟩
  | .ldReg _ _ => some ⟨0xF00F#16, 0x8000#16⟩
  | .orReg _ _ => some ⟨0xF00F#16, 0x8001#16⟩
  | .andReg _ _ => some ⟨0xF00F#16, 0x8002#16⟩
  | .xorReg _ _ => some ⟨0xF00F#16, 0x8003#16⟩
  | .addReg _ _ => some ⟨0xF00F#16, 0x8004#16⟩
  | .subReg _ _ => some ⟨0xF00F#16, 0x8005#16⟩
  | .shr _ _ => some ⟨0xF00F#16, 0x8006#16⟩
  | .subnReg _ _ => some ⟨0xF00F#16, 0x8007#16⟩
  | .shl _ _ => some ⟨0xF00F#16, 0x800E#16⟩
  | .sneReg _ _ _ => some ⟨0xF000#16, 0x9000#16⟩
  | .ldI _ => some ⟨0xF000#16, 0xA000#16⟩
  | .jpV0 _ => some ⟨0xF000#16, 0xB000#16⟩
  | .rnd _ _ => some ⟨0xF000#16, 0xC000#16⟩
  | .drw _ _ _ => some ⟨0xF000#16, 0xD000#16⟩
  | .skp _ => some ⟨0xF0FF#16, 0xE09E#16⟩
  | .sknp _ => some ⟨0xF0FF#16, 0xE0A1#16⟩
  | .ldVxDt _ => some ⟨0xF0FF#16, 0xF007#16⟩
  | .ldVxK _ => some ⟨0xF0FF#16, 0xF00A#16⟩
  | .ldDtVx _ => some ⟨0xF0FF#16, 0xF015#16⟩
  | .ldStVx _ => some ⟨0xF0FF#16, 0xF018#16⟩
  | .addI _ => some ⟨0xF0FF#16, 0xF01E#16⟩
  | .ldF _ => some ⟨0xF0FF#16, 0xF029#16⟩
  | .ldB _ => some ⟨0xF0FF#16, 0xF033#16⟩
  | .storeRegs _ => some ⟨0xF0FF#16, 0xF055#16⟩
  | .loadRegs _ => some ⟨0xF0FF#16, 0xF065#16⟩
  | .ignored _ => none

/-- The word of a well-formed instruction selects the instruction's own row, which is one of the 34; the word of an ignored
instruction selects no row. -/
def Row.Statement (i : Instr) : Prop :=
  i.wf = true → match Row.rowOf i with
    | some r => r ∈ opcodeRows ∧ r.selects (encode i) = true
    | none => isIgnoredWord (encode i) = true

/-- A row of mask 0xF000, 0xF00F or 0xF0FF is selected when the bits it keeps are its own, as numbers. -/
theorem Row.selects_F000 {w v : Word} (h : w.toNat / 0x1000 * 0x1000 = v.toNat) :
    OpcodeRow.selects ⟨0xF000#16, v⟩ w = true :=
  beq_iff_eq.mpr (BitVec.eq_of_toNat_eq ((and_mask_F000 w).trans h))

theorem Row.selects_F00F {w v : Word} (h : w.toNat / 0x1000 * 0x1000 + w.toNat % 0x10 = v.toNat) :
    OpcodeRow.selects ⟨0xF00F#16, v⟩ w = true :=
  beq_iff_eq.mpr (BitVec.eq_of_toNat_eq ((and_mask_F00F w).trans h))

theorem Row.selects_F0FF {w v : Word} (h : w.toNat / 0x1000 * 0x1000 + w.toNat % 0x100 = v.toNat) :
    OpcodeRow.selects ⟨0xF0FF#16, v⟩ w = true :=
  beq_iff_eq.mpr (BitVec.eq_of_toNat_eq ((and_mask_F0FF w).trans h))

theorem Row.cls (x : Nibble) : Row.Statement (.cls x) := fun _ =>
  ⟨by decide, Row.selects_F0FF (by
    have := x.isLt
    rw [encode, wordXKK_toNat (by decide)]; simp; omega)⟩
theorem Row.ret (x : Nibble) : Row.Statement (.ret x) := fun _ =>
  ⟨by decide, Row.selects_F0FF (by
    have := x.isLt
    rw [encode, wordXKK_toNat (by decide)]; simp; omega)⟩
theorem Row.jp (nnn : Addr12) : Row.Statement (.jp nnn) := fun _ =>
  ⟨by decide, Row.selects_F000 (by
    have := nnn.isLt
    rw [encode, wordNNN_toNat (by decide)]; simp; omega)⟩
theorem Row.call (nnn : Addr12) : Row.Statement (.call nnn) := fun _ =>
  ⟨by decide, Row.selects_F000 (by
    have := nnn.isLt
    rw [encode, wordNNN_toNat (by decide)]; simp; omega)⟩
theorem Row.seByte (x : Reg) (kk : Byte) : Row.Statement (.seByte x kk) := fun _ =>
  ⟨by decide, Row.selects_F000 (by
    have := kk.isLt; have := x.isLt
    rw [encode, wordXKK_toNat (by decide)]; simp; omega)⟩
theorem Row.sneByte (x : Reg) (kk : Byte) : Row.Statement (.sneByte x kk) := fun _ =>
  ⟨by decide, Row.selects_F000 (by
    have := kk.isLt; have := x.isLt
    rw [encode, wordXKK_toNat (by decide)]; simp; omega)⟩
theorem Row.seReg (x y : Reg) (n : Nibble) : Row.Statement (.seReg x y n) := fun _ =>
  ⟨by decide, Row.selects_F000 (by
    have := n.isLt; have := y.isLt; have := x.isLt
    rw [encode, wordXYN_toNat (by decide)]; simp; omega)⟩
theorem Row.ldByte (x : Reg) (kk : Byte) : Row.Statement (.ldByte x kk) := fun _ =>
  ⟨by decide, Row.selects_F000 (by
    have := kk.isLt; have := x.isLt
    rw [encode, wordXKK_toNat (by decide)]; simp; omega)⟩
theorem Row.addByte (x : Reg) (kk : Byte) : Row.Statement (.addByte x kk) := fun _ =>
  ⟨by decide, Row.selects_F000 (by
    have := kk.isLt; have := x.isLt
    rw [encode, wordXKK_toNat (by decide)]; simp; omega)⟩
theorem Row.ldReg (x y : Reg) : Row.Statement (.ldReg x y) := fun _ =>
  ⟨by decide, Row.selects_F00F (by
    have := y.isLt; have := x.isLt
    rw [encode, wordXYN_toNat (by decide)]; simp; omega)⟩
theorem Row.orReg (x y : Reg) : Row.Statement (.orReg x y) := fun _ =>
  ⟨by decide, Row.selects_F00F (by
    have := y.isLt; have := x.isLt
    rw [encode, wordXYN_toNat (by decide)]; simp; omega)⟩
theorem Row.andReg (x y : Reg) : Row.Statement (.andReg x y) := fun _ =>
  ⟨by decide, Row.selects_F00F (by
    have := y.isLt; have := x.isLt
    rw [encode, wordXYN_toNat (by decide)]; simp; omega)⟩
theorem Row.xorReg (x y : Reg) : Row.Statement (.xorReg x y) := fun _ =>
  ⟨by decide, Row.selects_F00F (by
    have := y.isLt; have := x.isLt
    rw [encode, wordXYN_toNat (by decide)]; simp; omega)⟩
theorem Row.addReg (x y : Reg) : Row.Statement (.addReg x y) := fun _ =>
  ⟨by decide, Row.selects_F00F (by
    have := y.isLt; have := x.isLt
    rw [encode, wordXYN_toNat (by decide)]; simp; omega)⟩
theorem Row.subReg (x y : Reg) : Row.Statement (.subReg x y) := fun _ =>
  ⟨by decide, Row.selects_F00F (by
    have := y.isLt; have := x.isLt
    rw [encode, wordXYN_toNat (by decide)]; simp; omega)⟩
theorem Row.shr (x : Reg) (y : Nibble) : Row.Statement (.shr x y) := fun _ =>
  ⟨by decide, Row.selects_F00F (by
    have := y.isLt; have := x.isLt
    rw [encode, wordXYN_toNat (by decide)]; simp; omega)⟩
theorem Row.subnReg (x y : Reg) : Row.Statement (.subnReg x y) := fun _ =>
  ⟨by decide, Row.selects_F00F (by
    have := y.isLt; have := x.isLt
    rw [encode, wordXYN_toNat (by decide)]; simp; omega)⟩
theorem Row.shl (x : Reg) (y : Nibble) : Row.Statement (.shl x y) := fun _ =>
  ⟨by decide, Row.selects_F00F (by
    have := y.isLt; have := x.isLt
    rw [encode, wordXYN_toNat (by decide)]; simp; omega)⟩
theorem Row.sneReg (x y : Reg) (n : Nibble) : Row.Statement (.sneReg x y n) := fun _ =>
  ⟨by decide, Row.selects_F000 (by
    have := n.isLt; have := y.isLt; have := x.isLt
    rw [encode, wordXYN_toNat (by decide)]; simp; omega)⟩
theorem Row.ldI (nnn : Addr12) : Row.Statement (.ldI nnn) := fun _ =>
  ⟨by decide, Row.selects_F000 (by
    have := nnn.isLt
    rw [encode, wordNNN_toNat (by decide)]; simp; omega)⟩
theorem Row.jpV0 (nnn : Addr12) : Row.Statement (.jpV0 nnn) := fun _ =>
  ⟨by decide, Row.selects_F000 (by
    have := nnn.isLt
    rw [encode, wordNNN_toNat (by decide)]; simp; omega)⟩
theorem Row.rnd (x : Reg) (kk : Byte) : Row.Statement (.rnd x kk) := fun _ =>
  ⟨by decide, Row.selects_F000 (by
    have := kk.isLt; have := x.isLt
    rw [encode, wordXKK_toNat (by decide)]; simp; omega)⟩
theorem Row.drw (x y : Reg) (n : Nibble) : Row.Statement (.drw x y n) := fun _ =>
  ⟨by decide, Row.selects_F000 (by
    have := n.isLt; have := y.isLt; have := x.isLt
    rw [encode, wordXYN_toNat (by decide)]; simp; omega)⟩
theorem Row.skp (x : Reg) : Row.Statement (.skp x) := fun _ =>
  ⟨by decide, Row.selects_F0FF (by
    have := x.isLt
    rw [encode, wordXKK_toNat (by decide)]; simp; omega)⟩
theorem Row.sknp (x : Reg) : Row.Statement (.sknp x) := fun _ =>
  ⟨by decide, Row.selects_F0FF (by
    have := x.isLt
    rw [encode, wordXKK_toNat (by decide)]; simp; omega)⟩
theorem Row.ldVxDt (x : Reg) : Row.Statement (.ldVxDt x) := fun _ =>
  ⟨by decide, Row.selects_F0FF (by
    have := x.isLt
    rw [encode, wordXKK_toNat (by decide)]; simp; omega)⟩
theorem Row.ldVxK (x : Reg) : Row.Statement (.ldVxK x) := fun _ =>
  ⟨by decide, Row.selects_F0FF (by
    have := x.isLt
    rw [encode, wordXKK_toNat (by decide)]; simp; omega)⟩
theorem Row.ldDtVx (x : Reg) : Row.Statement (.ldDtVx x) := fun _ =>
  ⟨by decide, Row.selects_F0FF (by
    have := x.isLt
    rw [encode, wordXKK_toNat (by decide)]; simp; omega)⟩
theorem Row.ldStVx (x : Reg) : Row.Statement (.ldStVx x) := fun _ =>
  ⟨by decide, Row.selects_F0FF (by
    have := x.isLt
    rw [encode, wordXKK_toNat (by decide)]; simp; omega)⟩
theorem Row.addI (x : Reg) : Row.Statement (.addI x) := fun _ =>
  ⟨by decide, Row.selects_F0FF (by
    have := x.isLt
    rw [encode, wordXKK_toNat (by decide)]; simp; omega)⟩
theorem Row.ldF (x : Reg) : Row.Statement (.ldF x) := fun _ =>
  ⟨by decide, Row.selects_F0FF (by
    have := x.isLt
    rw [encode, wordXKK_toNat (by decide)]; simp; omega)⟩
theorem Row.ldB (x : Reg) : Row.Statement (.ldB x) := fun _ =>
  ⟨by decide, Row.selects_F0FF (by
    have := x.isLt
    rw [encode, wordXKK_toNat (by decide)]; simp; omega)⟩
theorem Row.storeRegs (x : Reg) : Row.Statement (.storeRegs x) := fun _ =>
  ⟨by decide, Row.selects_F0FF (by
    have := x.isLt
    rw [encode, wordXKK_toNat (by decide)]; simp; omega)⟩
theorem Row.loadRegs (x : Reg) : Row.Statement (.loadRegs x) := fun _ =>
  ⟨by decide, Row.selects_F0FF (by
    have := x.isLt
    rw [encode, wordXKK_toNat (by decide)]; simp; omega)⟩
theorem Row.ignored (w : Word) : Row.Statement (.ignored w) := fun h => h

end Sys2Proof.Laws
end

