-- ==== Sys2Proof/Laws/RunEnd.lean ====
section
/-! SUPPORT. What the status of a run says (70_reset_and_hazards.md R146): it is final once it is not `going`, it names the first
halted state or the stop before any, and every run ends, fails or never ends, and only one of these. -/

namespace Sys2Proof.Machine

variable {σ : Nat → Event} {s t u : State} {n m : Nat}

/-! ### One event -/

/-- A state is halted at no address but its PC. -/
theorem State.halted_iff : s.halted ↔ ∃ h, s.haltedAt h :=
  ⟨fun h => ⟨_, h⟩, fun ⟨_, h⟩ => by rw [State.halted, h.2.1]; exact h⟩

/-- A halted state ends its run at once. -/
theorem runStatus_of_halted (h : s.halted) : runStatus σ n s = .ended s := by
  cases n <;> rw [runStatus, if_pos h]

theorem runStatus_zero (h : ¬s.halted) : runStatus σ 0 s = .going s := if_neg h

/-- A run that is not halted goes on with its next event. -/
theorem runStatus_next (h : ¬s.halted) (he : applyEvent (σ 0) s = .next u) :
    runStatus σ (n + 1) s = runStatus (fun k => σ (k + 1)) n u := by rw [runStatus, if_neg h, he]

/-- A run that is not halted fails when its next event stops. -/
theorem runStatus_fault {f : Fault} (h : ¬s.halted) (he : applyEvent (σ 0) s = .fault f) :
    runStatus σ (n + 1) s = .failed f := by rw [runStatus, if_neg h, he]

theorem runEvents_next (he : applyEvent (σ 0) s = .next u) : runEvents σ (n + 1) s = runEvents (fun k => σ (k + 1)) n u := by
  rw [runEvents, he]

theorem runEvents_fault {f : Fault} (he : applyEvent (σ 0) s = .fault f) : runEvents σ (n + 1) s = .fault f := by
  rw [runEvents, he]

/-- What an event can do to a run: it answers a next state or stops. -/
theorem applyEvent_cases (e : Event) (s : State) : (∃ u, applyEvent e s = .next u) ∨ ∃ f, applyEvent e s = .fault f := by
  cases h : applyEvent e s with
  | next u => exact .inl ⟨u, rfl⟩
  | fault f => exact .inr ⟨f, rfl⟩
  | refused r => exact absurd h applyEvent_ne_refused

/-! ### One more event at the end -/

/-- A run that is no longer going stays as it is. -/
theorem runStatus_final_succ (h : ∀ t, runStatus σ n s ≠ .going t) : runStatus σ (n + 1) s = runStatus σ n s := by
  induction n generalizing s σ with
  | zero =>
    by_cases hs : s.halted
    · rw [runStatus_of_halted hs, runStatus_of_halted hs]
    · exact absurd (runStatus_zero hs) (h s)
  | succ n ih =>
    by_cases hs : s.halted
    · rw [runStatus_of_halted hs, runStatus_of_halted hs]
    · obtain ⟨v, hv⟩ | ⟨f, hf⟩ := applyEvent_cases (σ 0) s
      · rw [runStatus_next hs hv, runStatus_next hs hv]
        exact ih (by rwa [runStatus_next hs hv] at h)
      · rw [runStatus_fault hs hf, runStatus_fault hs hf]

theorem runStatus_final (h : ∀ t, runStatus σ n s ≠ .going t) (hm : n ≤ m) : runStatus σ m s = runStatus σ n s := by
  induction m, hm using Nat.le_induction with
  | base => rfl
  | succ m _ ih => rw [runStatus_final_succ (by rwa [ih]), ih]

/-! ### What the status names -/

/-- The status is `going` at `t` when `t` is reached by that many events and no state up to it is halted. -/
theorem runStatus_going_iff : runStatus σ n s = .going t ↔
    runEvents σ n s = .next t ∧ ∀ j ≤ n, ∀ u, runEvents σ j s = .next u → ¬u.halted := by
  induction n generalizing s σ with
  | zero =>
    by_cases hs : s.halted
    · rw [runStatus_of_halted hs]
      exact ⟨fun h => (by cases h), fun h => absurd hs (h.2 0 (Nat.le_refl 0) s rfl)⟩
    · rw [runStatus_zero hs]
      refine ⟨fun h => ?_, fun h => ?_⟩
      · cases h
        refine ⟨rfl, fun j hj u hu => ?_⟩
        obtain rfl := Nat.le_zero.mp hj
        cases hu; exact hs
      · cases h.1; rfl
  | succ n ih =>
    by_cases hs : s.halted
    · rw [runStatus_of_halted hs]
      exact ⟨fun h => (by cases h), fun h => absurd hs (h.2 0 (Nat.zero_le _) s rfl)⟩
    · obtain ⟨v, hv⟩ | ⟨f, hf⟩ := applyEvent_cases (σ 0) s
      · rw [runStatus_next hs hv, runEvents_next hv, ih]
        refine and_congr_right fun _ => ⟨fun h j hj u hu => ?_, fun h j hj u hu => ?_⟩
        · cases j with
          | zero => cases hu; exact hs
          | succ j => rw [runEvents_next hv] at hu; exact h j (by omega) u hu
        · exact h (j + 1) (by omega) u (by rw [runEvents_next hv]; exact hu)
      · rw [runStatus_fault hs hf, runEvents_fault hf]; simp

/-- The status is `ended` at `t` when `t` is the first halted state that the run reaches, within that many events. -/
theorem runStatus_ended_iff : runStatus σ n s = .ended t ↔
    ∃ k ≤ n, runEvents σ k s = .next t ∧ t.halted ∧ ∀ j < k, ∀ u, runEvents σ j s = .next u → ¬u.halted := by
  induction n generalizing s σ with
  | zero =>
    by_cases hs : s.halted
    · rw [runStatus_of_halted hs]
      refine ⟨fun h => ?_, fun ⟨k, hk, hr, _⟩ => ?_⟩
      · cases h; exact ⟨0, Nat.le_refl 0, rfl, hs, fun j hj => absurd hj (Nat.not_lt_zero j)⟩
      · obtain rfl := Nat.le_zero.mp hk
        cases hr; rfl
    · rw [runStatus_zero hs]
      refine ⟨fun h => (by cases h), fun ⟨k, hk, hr, hh, _⟩ => ?_⟩
      obtain rfl := Nat.le_zero.mp hk
      cases hr; exact absurd hh hs
  | succ n ih =>
    by_cases hs : s.halted
    · rw [runStatus_of_halted hs]
      refine ⟨fun h => ?_, fun ⟨k, _, hr, _, hj⟩ => ?_⟩
      · cases h; exact ⟨0, Nat.zero_le _, rfl, hs, fun j hj => absurd hj (Nat.not_lt_zero j)⟩
      · cases k with
        | zero => cases hr; rfl
        | succ k => exact absurd hs (hj 0 (Nat.succ_pos k) s rfl)
    · obtain ⟨v, hv⟩ | ⟨f, hf⟩ := applyEvent_cases (σ 0) s
      · rw [runStatus_next hs hv, ih]
        constructor
        · rintro ⟨k, hk, hr, hh, hj⟩
          refine ⟨k + 1, by omega, by rw [runEvents_next hv]; exact hr, hh, fun j hjk u hu => ?_⟩
          cases j with
          | zero => cases hu; exact hs
          | succ j => rw [runEvents_next hv] at hu; exact hj j (by omega) u hu
        · rintro ⟨k, hk, hr, hh, hj⟩
          cases k with
          | zero => cases hr; exact absurd hh hs
          | succ k =>
            rw [runEvents_next hv] at hr
            exact ⟨k, by omega, hr, hh, fun j hjk u hu => hj (j + 1) (by omega) u (by rw [runEvents_next hv]; exact hu)⟩
      · rw [runStatus_fault hs hf]
        refine ⟨fun h => (by cases h), fun ⟨k, _, hr, hh, _⟩ => ?_⟩
        cases k with
        | zero => cases hr; exact absurd hh hs
        | succ k => rw [runEvents_fault hf] at hr; cases hr

/-- A failed run got to a state that is not halted, and its next event stops by that fault. -/
theorem RunFails.exists_stop {f : Fault} (h : RunFails σ s f) :
    ∃ n t, runStatus σ n s = .going t ∧ applyEvent (σ n) t = .fault f := by
  obtain ⟨n, h⟩ := h
  induction n generalizing s σ with
  | zero =>
    by_cases hs : s.halted
    · rw [runStatus_of_halted hs] at h; cases h
    · rw [runStatus_zero hs] at h; cases h
  | succ n ih =>
    by_cases hs : s.halted
    · rw [runStatus_of_halted hs] at h; cases h
    · obtain ⟨v, hv⟩ | ⟨g, hg⟩ := applyEvent_cases (σ 0) s
      · rw [runStatus_next hs hv] at h
        obtain ⟨k, t, hk, ht⟩ := ih h
        exact ⟨k + 1, t, by rw [runStatus_next hs hv]; exact hk, ht⟩
      · rw [runStatus_fault hs hg] at h; cases h
        exact ⟨0, s, runStatus_zero hs, hg⟩

/-! ### The kinds of run -/

/-- Two statuses of one run that are both final are the same. -/
theorem runStatus_final_unique (hn : ∀ t, runStatus σ n s ≠ .going t) (hm : ∀ t, runStatus σ m s ≠ .going t) :
    runStatus σ n s = runStatus σ m s := by
  rcases Nat.le_total n m with h | h
  · exact (runStatus_final hn h).symm
  · exact runStatus_final hm h

/-- No run is refused. -/
theorem not_runRefused {r : Refusal} : ¬RunRefused σ s r := by
  rintro ⟨n, h⟩
  induction n generalizing s σ with
  | zero =>
    by_cases hs : s.halted
    · rw [runStatus_of_halted hs] at h; cases h
    · rw [runStatus_zero hs] at h; cases h
  | succ n ih =>
    by_cases hs : s.halted
    · rw [runStatus_of_halted hs] at h; cases h
    · obtain ⟨v, hv⟩ | ⟨g, hg⟩ := applyEvent_cases (σ 0) s
      · rw [runStatus_next hs hv] at h; exact ih h
      · rw [runStatus_fault hs hg] at h; cases h

/-- Every run ends, fails, or never ends. -/
theorem run_kinds (σ : Nat → Event) (s : State) :
    (∃ t, RunEnds σ s t) ∨ (∃ f, RunFails σ s f) ∨ RunNeverEnds σ s := by
  by_cases h : RunNeverEnds σ s
  · exact .inr (.inr h)
  · obtain ⟨n, hn⟩ := not_forall.mp h
    cases hs : runStatus σ n s with
    | ended t => exact .inl ⟨t, n, hs⟩
    | failed f => exact .inr (.inl ⟨f, n, hs⟩)
    | refused r => exact absurd ⟨n, hs⟩ not_runRefused
    | going t => exact absurd ⟨t, hs⟩ hn

/-- A run ends at one state only. -/
theorem RunEnds.unique (h : RunEnds σ s t) (h' : RunEnds σ s u) : t = u := by
  obtain ⟨n, hn⟩ := h
  obtain ⟨m, hm⟩ := h'
  have := runStatus_final_unique (n := n) (m := m) (by rw [hn]; simp) (by rw [hm]; simp)
  rw [hn, hm] at this
  exact RunStatus.ended.inj this

/-- A run that never ends has no final status. -/
theorem RunNeverEnds.not_final (h : RunNeverEnds σ s) : ¬∃ n, ∀ t, runStatus σ n s ≠ .going t :=
  fun ⟨n, hn⟩ => (h n).elim hn

theorem RunEnds.not_neverEnds (h : RunEnds σ s t) : ¬RunNeverEnds σ s :=
  fun hg => h.elim fun n hn => hg.not_final ⟨n, by simp [hn]⟩

theorem RunFails.not_neverEnds {f : Fault} (h : RunFails σ s f) : ¬RunNeverEnds σ s :=
  fun hg => h.elim fun n hn => hg.not_final ⟨n, by simp [hn]⟩

/-- A run that ends does not fail. -/
theorem RunEnds.not_fails {f : Fault} (h : RunEnds σ s t) : ¬RunFails σ s f := by
  rintro ⟨m, hm⟩
  obtain ⟨n, hn⟩ := h
  have := runStatus_final_unique (n := n) (m := m) (σ := σ) (s := s) (by simp [hn]) (by simp [hm])
  simp [hn, hm] at this

end Sys2Proof.Machine
end

