-- ==== Sys2Proof/Laws/Schedule.lean ====
section
/-! SUPPORT. The schedules: which events each gives, that no event reads or writes the schedule, and that the machine's own run is
the run under its own schedule (60_exceptions.md R126, R138; 45_timers.md R111). -/

namespace Sys2Proof.Machine

/-! ### The events of a schedule -/

@[simp] theorem Schedule.events_zero (σ : Schedule) : σ.events 0 = σ.head := rfl
@[simp] theorem Schedule.events_succ (σ : Schedule) (k : Nat) : σ.events (k + 1) = σ.tail.events k := rfl

/-- A free schedule gives the free events, in their order. -/
theorem Schedule.events_free (n k : Nat) : (free n).events k = Config.freeEvent (n + k) := by
  induction k generalizing n with
  | zero => rfl
  | succ k ih => rw [events_succ, tail, ih]; congr 1; omega

/-- A list of events before a schedule comes first, then the schedule. -/
theorem Schedule.events_foldr_cons (es : List Event) (σ : Schedule) (k : Nat) :
    (es.foldr cons σ).events k = if h : k < es.length then es[k] else σ.events (k - es.length) := by
  induction es generalizing k with
  | nil => rfl
  | cons e es ih =>
    cases k with
    | zero => rfl
    | succ k =>
      rw [List.foldr_cons, events_succ, tail, ih]
      by_cases h : k < es.length <;> simp [h]

/-- A loop gives its block over and over. -/
theorem Schedule.events_loop (e : Event) (es : List Event) (k : Nat) :
    (loop e es).events k = (e :: es)[k % (es.length + 1)]'(Nat.mod_lt k (Nat.succ_pos es.length)) := by
  induction k using Nat.strongRecOn with
  | ind k ih =>
    cases k with
    | zero => simp [head]
    | succ k =>
      rw [events_succ, tail, events_foldr_cons]
      by_cases h : k < es.length
      · have hm : (k + 1) % (es.length + 1) = k + 1 := Nat.mod_eq_of_lt (by omega)
        simp [h, hm]
      · have hm : (k + 1) % (es.length + 1) = (k - es.length) % (es.length + 1) := by
          rw [Nat.mod_eq_sub_mod (by omega)]; congr 1; omega
        rw [dif_neg h, ih _ (by omega)]
        simp [hm]

/-- Under the policy of a tick before every step, ticks and steps alternate (45_timers.md R111). -/
theorem Schedule.tickEachStep_events (k : Nat) :
    tickEachStep.events (2 * k) = .timerTick ∧ tickEachStep.events (2 * k + 1) = .coreStep := by
  constructor <;> rw [tickEachStep, events_loop] <;> simp

/-- Where the core is alone, every event is its step. -/
theorem Schedule.coreAlone_events (k : Nat) : coreAlone.events k = .coreStep := by
  rw [coreAlone, events_loop]; simp [Nat.mod_one]

/-! ### No event reads or writes the schedule -/

section
variable (s : State) (σ : Schedule)

/-- The outcome, with the schedule of the state it names replaced. -/
def Result.under (σ : Schedule) : Result → Result
  | .next t => .next (t.setSchedule σ)
  | .fault (.unspecified r u) => .fault (.unspecified r (u.setSchedule σ))
  | .refused r => .refused r

theorem State.storeRegs_setSchedule (n : Nat) : (s.setSchedule σ).storeRegs n = (s.storeRegs n).setSchedule σ := by
  induction n with
  | zero => rfl
  | succ n ih => rw [State.storeRegs, State.storeRegs, ih]; rfl

theorem State.loadRegs_setSchedule (n : Nat) : (s.setSchedule σ).loadRegs n = (s.loadRegs n).setSchedule σ := by
  induction n with
  | zero => rfl
  | succ n ih => rw [State.loadRegs, State.loadRegs, ih]; rfl

theorem State.blit_setSchedule (x y n : Nat) : (s.setSchedule σ).blit x y n = s.blit x y n := by
  induction n with
  | zero => rfl
  | succ n ih => rw [State.blit, State.blit, ih]; rfl

/-- No instruction reads or writes the schedule: under another schedule it does the same. -/
theorem exec_setSchedule (i : Instr) : exec i (s.setSchedule σ) = Result.under σ (exec i s) := by
  cases i with
  | ret x => simp only [exec, execRet, State.setSchedule_cfg]; split <;> rfl
  | call nnn => simp only [exec, execCall]; split <;> rfl
  | drw x y n =>
    simp only [exec, execDrw, State.setSchedule_cfg, State.getV_setSchedule, State.blit_setSchedule]; split <;> rfl
  | skp x => simp only [exec, execSkp]; rw [show (s.setSchedule σ).keyAt = s.keyAt from rfl]; simp only [State.getV_setSchedule]; split <;> rfl
  | sknp x => simp only [exec, execSknp]; rw [show (s.setSchedule σ).keyAt = s.keyAt from rfl]; simp only [State.getV_setSchedule]; split <;> rfl
  | ldVxK x =>
    have hk : (s.setSchedule σ).newKey = s.newKey := rfl
    cases hw : s.watching <;> simp only [exec, execLdVxK, State.setSchedule_watching, hw, hk, if_true, Bool.false_eq_true, if_false]
    · rfl
    · split <;> rfl
  | ldStVx x =>
    by_cases h : (s.getV x != 0) = true <;> simp only [exec, execLdStVx, State.getV_setSchedule, h, if_true] <;> rfl
  | ldF x =>
    by_cases h : (s.getV x).toNat < 16 <;> simp only [exec, execLdF, State.getV_setSchedule, h, if_true, if_false] <;> rfl
  | storeRegs x => simp only [exec, execStoreRegs, State.storeRegs_setSchedule]; rfl
  | loadRegs x => simp only [exec, execLoadRegs, State.loadRegs_setSchedule]; rfl
  | _ => rfl

theorem applyEvent_setSchedule (e : Event) : applyEvent e (s.setSchedule σ) = Result.under σ (applyEvent e s) := by
  cases e with
  | coreStep =>
    simp only [applyEvent, coreStep]
    rw [show (s.setSchedule σ).running = s.running from rfl]
    split
    · rw [show exec (decodeWord ((s.setSchedule σ).memRead16 (s.setSchedule σ).pc)) (s.setSchedule σ).fetched = _ from
        exec_setSchedule s.fetched σ _]
      simp only [State.memRead16_setSchedule, State.setSchedule_pc]
      rcases exec (decodeWord (s.memRead16 s.pc)) s.fetched with t | ⟨r, u⟩ | r <;> rfl
    · rfl
  | timerTick =>
    simp only [applyEvent]
    rw [show (s.setSchedule σ).running = s.running from rfl]
    split <;> rfl
  | _ => rfl

end

/-! ### The machine's own run -/

/-- A run under another schedule makes the same events do the same. -/
theorem runEvents_setSchedule (τ : Nat → Event) (σ : Schedule) (n : Nat) (s : State) :
    runEvents τ n (s.setSchedule σ) = Result.under σ (runEvents τ n s) := by
  induction n generalizing τ s with
  | zero => rfl
  | succ n ih =>
    simp only [runEvents, applyEvent_setSchedule]
    rcases applyEvent (τ 0) s with t | ⟨r, u⟩ | r
    · exact ih _ t
    · rfl
    · rfl

variable {s t : State} {n : Nat}

theorem core_run_next (h : step s = .next t) : Sys2Proof.core.run (n + 1) s = Sys2Proof.core.run n t := by
  have gen : ∀ (M : Host.Core) (a b : M.State), M.step a = .next b → M.run (n + 1) a = M.run n b :=
    fun M a b h => by rw [Host.Core.run, h]
  exact gen Sys2Proof.core s t h

theorem core_run_fault {f : Fault} (h : step s = .fault f) : Sys2Proof.core.run (n + 1) s = .fault f := by
  have gen : ∀ (M : Host.Core) (a : M.State) (f : M.Fault), M.step a = .fault f → M.run (n + 1) a = .fault f :=
    fun M a f h => by rw [Host.Core.run, h]
  exact gen Sys2Proof.core s f h

/-- The runs of the interface are the runs under the state's own schedule, whose events they use up. -/
theorem core_run_eq_runEvents : Sys2Proof.core.run n s = .next t ↔
    ∃ u, runEvents s.schedule.events n s = .next u ∧ t = u.setSchedule (Schedule.tail^[n] s.schedule) := by
  induction n generalizing s with
  | zero => exact ⟨fun h => ⟨s, rfl, by cases h; rfl⟩, fun ⟨u, hu, ht⟩ => by cases hu; rw [ht]; rfl⟩
  | succ n ih =>
    have hstep : step s = Result.under s.schedule.tail (applyEvent (s.schedule.events 0) s) := applyEvent_setSchedule ..
    obtain ⟨v, hv⟩ | ⟨f, hf⟩ := applyEvent_cases (s.schedule.events 0) s
    · rw [hv] at hstep
      rw [core_run_next hstep, ih, runEvents_next hv, State.setSchedule_schedule, runEvents_setSchedule]
      show (∃ u, Result.under _ (runEvents s.schedule.tail.events n v) = _ ∧ _) ↔ ∃ u, runEvents s.schedule.tail.events n v = _ ∧ _
      rw [Function.iterate_succ_apply]
      constructor
      · rintro ⟨u, hu, rfl⟩
        cases hr : runEvents s.schedule.tail.events n v with
        | next w => rw [hr] at hu; cases hu; exact ⟨w, rfl, rfl⟩
        | fault f => obtain ⟨r, w⟩ := f; rw [hr] at hu; cases hu
        | refused r => rw [hr] at hu; cases hu
      · rintro ⟨u, hu, rfl⟩
        exact ⟨u.setSchedule s.schedule.tail, by rw [hu]; rfl, rfl⟩
    · obtain ⟨r, w⟩ := f
      rw [hf] at hstep
      rw [core_run_fault hstep, runEvents_fault hf]; simp

end Sys2Proof.Machine
end

