-- ==== Sys2Proof/Tests/Slice0.lean ====
section
/-! SUPPORT. Tests. Expected values are those of spec/95_test_vectors.md (the section stands at each group), or are worked out
by hand from the rule named. Every test is one step. -/

namespace Sys2Proof.Tests
open Sys2Proof.Machine

/-! ### Helpers -/

/-- What `f` reads in the next state. -/
def after {α : Type} (o : Result) (f : State → α) : Option α :=
  match o with
  | .next t => some (f t)
  | _ => none

/-- Why a step stops, with PC, MAR and cycle at the stop. -/
def stop (o : Result) : Option (Unspecified × Word × Word × BitVec 64) :=
  match o with
  | .fault (.unspecified r u) => some (r, u.pc, u.mar, u.cycle)
  | _ => none

/-- The launch state of the default configuration in one of the two draw modes, with the core alone. -/
def base (wrap : Bool) : State :=
  { State.reset with cfg := { Config.hardware with drawWrap := wrap }, schedule := .coreAlone }

/-- The base state in no-wrap mode, with some registers set. -/
def regs (l : List (Reg × Byte)) : State := l.foldl (fun s p => s.setV p.1 p.2) (base false)

/-- The state with bytes stored in memory from address `a` on. -/
def poke (s : State) (a : Nat) (l : List Byte) : State := s.setMem (storeBytes s.cfg.fontTable s.mem a l)

/-- One step on the word `w`, placed where the next fetch reads it. -/
def run (w : Nat) (s : State) : Result := step (s.withFetchWord 16 w)

/-- V0 and VF of the next state. -/
def v0f (o : Result) : Option (Byte × Byte) := after o fun t => (t.getV 0, t.getV 15)

/-! ### WellFormed: one check, an ignored instruction carries an ignored word (30_encoding.md R56) -/

theorem test_wf_refuses_a_word_of_every_row : (opcodeRows.all fun r => !(Instr.ignored r.value).wf) = true := by rfl

theorem test_wf_refuses_a_word_with_ignored_nibbles :
    (Instr.ignored 0x01E0#16).wf = false ∧ (Instr.ignored 0x5121#16).wf = false ∧ (Instr.ignored 0x80F6#16).wf = false := by
  decide

theorem test_wf_accepts_ignored_words :
    ([0x0000#16, 0x0123#16, 0x801F#16, 0x8008#16, 0xE0FF#16, 0xF0FF#16, 0xFFFF#16].all fun w => (Instr.ignored w).wf) = true := by rfl

/-! ### Decode: words written out from the encodings of each rule (41_arithmetic.md to 46_keys.md) -/

def vectors1 : List (Word × Instr) :=
  [(0x00E0#16, .cls 0), (0x01E0#16, .cls 1), (0x03EE#16, .ret 3), (0x1234#16, .jp 0x234#12), (0x2ABC#16, .call 0xABC#12),
   (0x3A12#16, .seByte 10 0x12#8), (0x4B34#16, .sneByte 11 0x34#8), (0x5121#16, .seReg 1 2 1), (0x6A42#16, .ldByte 10 0x42#8),
   (0x7201#16, .addByte 2 0x01#8)]

def vectors2 : List (Word × Instr) :=
  [(0x8120#16, .ldReg 1 2), (0x8121#16, .orReg 1 2), (0x8122#16, .andReg 1 2), (0x8123#16, .xorReg 1 2), (0x8124#16, .addReg 1 2),
   (0x8125#16, .subReg 1 2), (0x8126#16, .shr 1 2), (0x8127#16, .subnReg 1 2), (0x812E#16, .shl 1 2), (0x912F#16, .sneReg 1 2 15)]

def vectors3 : List (Word × Instr) :=
  [(0xA2F0#16, .ldI 0x2F0#12), (0xB300#16, .jpV0 0x300#12), (0xC00F#16, .rnd 0 0x0F#8), (0xD125#16, .drw 1 2 5),
   (0xE19E#16, .skp 1), (0xE1A1#16, .sknp 1), (0xF507#16, .ldVxDt 5), (0xF30A#16, .ldVxK 3), (0xF515#16, .ldDtVx 5),
   (0xF018#16, .ldStVx 0)]

def vectors4 : List (Word × Instr) :=
  [(0xF11E#16, .addI 1), (0xF329#16, .ldF 3), (0xF033#16, .ldB 0), (0xFF55#16, .storeRegs 15), (0xF265#16, .loadRegs 2),
   (0x0123#16, .ignored 0x0123#16), (0x8008#16, .ignored 0x8008#16), (0xE0FF#16, .ignored 0xE0FF#16), (0xFFFF#16, .ignored 0xFFFF#16)]

theorem test_decode_rows_1 : ∀ p ∈ vectors1, decodeWord p.1 = p.2 := by decide
theorem test_decode_rows_2 : ∀ p ∈ vectors2, decodeWord p.1 = p.2 := by decide
theorem test_decode_rows_3 : ∀ p ∈ vectors3, decodeWord p.1 = p.2 := by decide
theorem test_decode_rows_4 : ∀ p ∈ vectors4, decodeWord p.1 = p.2 := by decide
theorem test_encode_rows : ∀ p ∈ vectors1 ++ vectors2 ++ vectors3 ++ vectors4, encode p.2 = p.1 := by decide

/-- The high byte comes first (20_memory.md R40), and one byte is no instruction (30_encoding.md R51). -/
theorem test_decode_bytes :
    decodeBytes [0xA2#8, 0xF0#8, 0x12#8] = .ok (.ldI 0x2F0#12, [0x12#8]) ∧ decodeBytes [0xA2#8] = .error .truncated ∧
      decodeTableWord 16 0xA2F0 = some (.ldI 0x2F0#12) := ⟨rfl, rfl, by decide⟩

/-! ### Arithmetic (95_test_vectors.md E4 to E6, 2.2) -/

theorem test_ldByte : after (run 0x6A42 (base false)) (·.getV 10) = some 0x42 := by decide
theorem test_addByte_wraps : after (run 0x7201 (regs [(2, 0xFF)])) (fun t => (t.getV 2, t.getV 15)) = some (0x00, 0x01) := by decide
theorem test_addByte_to_vf : after (run 0x7F01 (regs [(15, 0x10)])) (·.getV 15) = some 0x00 := by decide
theorem test_ldReg : v0f (run 0x8010 (regs [(1, 0x07), (15, 0x55)])) = some (0x07, 0x55) := by decide
theorem test_orReg_keeps_vf : v0f (run 0x8011 (regs [(0, 0x0F), (1, 0xF0), (15, 0x55)])) = some (0xFF, 0x55) := by decide
theorem test_andReg : v0f (run 0x8012 (regs [(0, 0x3C), (1, 0x0F)])) = some (0x0C, 0x00) := by decide
theorem test_xorReg : v0f (run 0x8013 (regs [(0, 0x3C), (1, 0x0F)])) = some (0x33, 0x00) := by decide
theorem test_addReg_wraps : v0f (run 0x8014 (regs [(0, 0x80), (1, 0x80)])) = some (0x00, 0x01) := by decide
theorem test_addReg_reads_old_vf :
    after (run 0x81F4 (regs [(1, 0x10), (15, 0x01)])) (fun t => (t.getV 1, t.getV 15)) = some (0x11, 0x00) := by decide
theorem test_subReg_borrow : v0f (run 0x8015 (regs [(0, 0x02), (1, 0x04)])) = some (0xFE, 0x00) := by decide
theorem test_subReg_equal_is_not_greater : v0f (run 0x8015 (regs [(0, 0x05), (1, 0x05), (15, 0x01)])) = some (0x00, 0x00) := by decide
theorem test_subnReg : v0f (run 0x8017 (regs [(0, 0x02), (1, 0x04)])) = some (0x02, 0x01) := by decide
theorem test_subnReg_borrow : v0f (run 0x8017 (regs [(0, 0x04), (1, 0x02), (15, 0x01)])) = some (0xFE, 0x00) := by decide
theorem test_shr_ignores_vy : v0f (run 0x8016 (regs [(0, 0x0F), (1, 0xFF)])) = some (0x07, 0x01) := by decide
theorem test_shr_of_vf : after (run 0x8F06 (regs [(15, 0x03)])) (·.getV 15) = some 0x00 := by decide
theorem test_shl : after (run 0x840E (regs [(4, 0x81)])) (fun t => (t.getV 4, t.getV 15)) = some (0x02, 0x01) := by decide
theorem test_shl_of_vf : after (run 0x8FFE (regs [(15, 0x81)])) (·.getV 15) = some 0x02 := by decide
theorem test_rnd_masks_the_draw :
    v0f (run 0xC00F (regs [(0, 0x12), (15, 0x01)])) = some (Config.randomByte 0 &&& 0x0F, 0x01) := by rfl


/-! ### Control flow (95_test_vectors.md 2.3, E7, P4) -/

/-- PC, SP and S[0] of the next state. -/
def flow (o : Result) : Option (Word × Nat × Option Word) := after o fun t => (t.pc, t.sp, t.stack[0]?)

theorem test_jp_below_0x200 : after (run 0x1000 (base false)) (·.pc) = some 0x0000 := by decide
theorem test_jpV0_beyond_12_bits : after (run 0xBFFF (regs [(0, 0xFF)])) (·.pc) = some 0x10FE := by decide
theorem test_call_pushes_its_own_address : flow (run 0x2300 (base false)) = some (0x0300, 1, some 0x0200) := by decide
theorem test_call_below_0x200_is_no_op : flow (run 0x21FF (base false)) = some (0x0202, 0, some 0x0000) := by decide
theorem test_ret_at_call_site :
    flow (run 0x00EE ((base false).push 0x0200)) = some (0x0200, 0, some 0x0200) := by decide
theorem test_ret_of_empty_stack_after_call :
    flow (run 0x00EE { base false with cfg := { Config.hardware with retResume := .afterCall } }) = some (0x0101, 0, some 0x0000) := by
  decide
theorem test_seByte_skips : after (run 0x3000 (base false)) (·.pc) = some 0x0204 := by decide
theorem test_seByte_no_skip : after (run 0x3001 (base false)) (·.pc) = some 0x0202 := by decide
theorem test_sneByte_skips : after (run 0x4000 (regs [(0, 0x01)])) (·.pc) = some 0x0204 := by decide
theorem test_seReg_ignores_its_low_nibble : after (run 0x5121 (regs [(1, 0x33), (2, 0x33)])) (·.pc) = some 0x0204 := by decide
theorem test_seReg_no_skip : after (run 0x5120 (regs [(1, 0x33), (2, 0x34)])) (·.pc) = some 0x0202 := by decide
theorem test_sneReg_skips : after (run 0x912F (regs [(1, 0x01), (2, 0x02)])) (·.pc) = some 0x0204 := by decide
theorem test_sneReg_same_register : after (run 0x9110 (base false)) (·.pc) = some 0x0202 := by decide
theorem test_ignored_word :
    after (run 0x801F (regs [(15, 0x55)])) (fun t => (t.pc, t.mar, t.cycle, t.getV 15)) = some (0x0202, 0x0200, 1, 0x55) := by decide

/-! ### Index register and memory (95_test_vectors.md 2.4) -/

/-- The bytes at `a`, `a+1` and `a+2`, and I. -/
def block (a : Nat) (o : Result) : Option (Byte × Byte × Byte × Word) :=
  after o fun t => (t.byteAt a, t.byteAt (a + 1), t.byteAt (a + 2), t.i)

theorem test_ldI : after (run 0xAFFF (base false)) (·.i) = some 0x0FFF := by decide
theorem test_addI_sets_no_flag :
    after (run 0xF01E ((regs [(0, 0x01)]).setI 0x0FFF)) (fun t => (t.i, t.getV 15)) = some (0x1000, 0x00) := by decide
theorem test_addI_wraps : after (run 0xF01E ((regs [(0, 0x02)]).setI 0xFFFF)) (·.i) = some 0x0001 := by decide
theorem test_ldF_last_glyph : after (run 0xF329 (regs [(3, 0x0F)])) (·.i) = some 0x004B := by decide
theorem test_ldF_stops : stop (run 0xF329 (regs [(3, 0x10)])) = some (.fontDigitOutOfRange, 0x0202, 0x0200, 0) := by decide
theorem test_ldB : block 0x300 (run 0xF033 ((regs [(0, 0xFE)]).setI 0x0300)) = some (0x02, 0x05, 0x04, 0x0300) := by decide
/-- The hundreds digit is dropped; tens and ones land on the font at 0x000 and 0x001; the font's third byte stays. -/
theorem test_ldB_wraps_at_16_bits :
    block 0x000 (run 0xF033 ((regs [(0, 0x7B)]).setI 0xFFFF)) = some (0x02, 0x03, 0x90, 0xFFFF) := by decide
theorem test_storeRegs :
    block 0x400 (run 0xF255 ((regs [(0, 1), (1, 2), (2, 3)]).setI 0x0400)) = some (0x01, 0x02, 0x03, 0x0400) := by decide
theorem test_storeRegs_of_v0_only : block 0x400 (run 0xF055 ((regs [(0, 9), (1, 8)]).setI 0x0400)) = some (0x09, 0x00, 0x00, 0x0400) := by
  decide
theorem test_loadRegs :
    after (run 0xF265 ((poke (base false) 0x300 [0x02, 0x05, 0x04]).setI 0x0300)) (fun t => (t.getV 0, t.getV 1, t.getV 2, t.getV 3)) =
      some (0x02, 0x05, 0x04, 0x00) := by decide
theorem test_loadRegs_beyond_memory :
    after (run 0xFF65 ((poke (base false) 0xFFF [0x17]).setI 0x0FFF)) (fun t => (t.getV 0, t.getV 1, t.getV 15)) =
      some (0x17, 0xFF, 0xFF) := by decide

/-! ### Display (95_test_vectors.md E8, 2.5) -/

/-- A state ready to draw the sprite `l` at (V1, V2) = (x, y). -/
def drawing (wrap : Bool) (x y : Byte) (l : List Byte) : State :=
  (((poke (base wrap) 0x300 l).setI 0x0300).setV 1 x).setV 2 y

/-- Two display bytes and VF of the next state. -/
def screen (j k : Nat) (o : Result) : Option (Byte × Byte × Byte) :=
  after o fun t => (dispRead t.cfg t.display j, dispRead t.cfg t.display k, t.getV 15)

theorem test_cls_keeps_vf :
    screen 0 255 (run 0x00E0 (((base false).setDisplay (List.replicate 256 0xFF)).setV 15 0x01)) = some (0x00, 0x00, 0x01) := by
  decide
/-- E8, reading A, second draw: F0 F0 at (1, 1) over F0 in row 1. -/
theorem test_drw_merges_and_collides :
    screen 8 16 (run 0xD122 ((drawing false 1 1 [0xF0, 0xF0]).setDisplay ((List.replicate 256 0x00).set 8 0xF0))) =
      some (0x88, 0x78, 0x01) := by decide
theorem test_drw_edge_wraps : screen 7 0 (run 0xD121 (drawing true 60 0 [0xFF])) = some (0x0F, 0xF0, 0x00) := by decide

/-! ### Timers (95_test_vectors.md 2.6) -/

theorem test_tick :
    after (applyEvent .timerTick { base false with dt := 0x05, st := 0x00 }) (fun t => (t.dt, t.st)) = some (0x04, 0x00) := by decide
theorem test_ldVxDt : after (run 0xF507 { base false with dt := 0x3C }) (·.getV 5) = some 0x3C := by decide
theorem test_ldDtVx : after (run 0xF515 (regs [(5, 0x3C)])) (·.dt) = some 0x3C := by decide
theorem test_ldStVx_zero : after (run 0xF018 { base false with st := 0x10 }) (·.st) = some 0x10 := by decide
theorem test_ldStVx : after (run 0xF018 { regs [(0, 0x05)] with st := 0x10 }) (·.st) = some 0x05 := by decide

/-! ### Keys (95_test_vectors.md E9, 2.7) -/

/-- The state with some keys pressed. -/
def press (s : State) (l : List Key) : State := l.foldl (fun s k => s.setKeyState k true) s

/-- A state that waits for a key, with no key in the snapshot. -/
def waiting (l : List Key) : State := { press (base false) l with watching := true }

theorem test_skp_pressed : after (run 0xE19E (press (regs [(1, 0x05)]) [5])) (·.pc) = some 0x0204 := by decide
theorem test_skp_stops : stop (run 0xE19E (regs [(1, 0x10)])) = some (.skpKeyOutOfRange, 0x0202, 0x0200, 0) := by decide
theorem test_sknp_pressed : after (run 0xE1A1 (press (regs [(1, 0x05)]) [5])) (·.pc) = some 0x0202 := by decide
theorem test_sknp_stops : stop (run 0xE1A1 (regs [(1, 0xFF)])) = some (.sknpKeyOutOfRange, 0x0202, 0x0200, 0) := by decide
theorem test_key_wait_begins :
    after (run 0xF30A (press (base false) [2])) (fun t => (t.pc, t.watching, t.kprev[2], t.getV 3)) = some (0x0200, true, true, 0x00) := by
  decide
theorem test_key_wait_takes_the_lowest_key :
    after (run 0xF40A (waiting [9, 3])) (fun t => (t.pc, t.watching, t.getV 4)) = some (0x0202, false, 0x03) := by decide

/-! ### Fetch, reset and load (95_test_vectors.md E1 to E3, 2.1) -/

theorem test_fetch_at_the_last_byte :
    after (step ((base false).setPc 0x0FFF)) (fun t => (t.pc, t.mar, t.cycle)) = some (0x1001, 0x0FFF, 1) := by decide
theorem test_fetch_wraps_pc : after (step ((base false).setPc 0xFFFE)) (·.pc) = some 0x0000 := by decide
theorem test_font_word_at_zero : (base false).memRead16 0x0000 = 0xF090 := by decide
theorem test_glyph_A_in_reset_memory :
    (List.range 5).map (fun k => State.reset.byteAt (0x32 + k)) = [0xF0, 0x90, 0xF0, 0x90, 0x90] := by decide
theorem test_word_write_is_big_endian :
    (((base false).memWrite16 0x0400 0x1234).byteAt 0x400, ((base false).memWrite16 0x0400 0x1234).byteAt 0x401) = (0x12, 0x34) := by decide
theorem test_display_accessors :
    dispRead Config.hardware State.reset.display 256 = 0xFF ∧ dispWrite Config.hardware State.reset.display 256 0x12 = State.reset.display :=
  ⟨rfl, rfl⟩
theorem test_load_program :
    after (loadProgram [0x12, 0x00] ((regs [(3, 7)]).push 0x0456))
      (fun t => (t.byteAt 0x200, t.byteAt 0, t.getV 3, t.sp, t.pc)) = some (0x12, 0xF0, 0x00, 0, 0x0200) := by decide
/-- R146: a self-jump ends its run at once, whatever may happen; the `F329` of P8 with V3 >= 16 fails its run, and a run into
empty memory goes on. -/
theorem test_run_status :
    runStatus Config.freeEvent 0 (poke (base false) 0x200 [0x12, 0x00]) = .ended (poke (base false) 0x200 [0x12, 0x00]) ∧
      (match runStatus Schedule.coreAlone.events 1 ((regs [(3, 0x10)]).withFetchWord 16 0xF329) with
        | .failed _ => true | _ => false) = true ∧
      (match runStatus Schedule.coreAlone.events 1 (base false) with | .going t => t.pc == 0x0202 | _ => false) = true :=
  ⟨rfl, rfl, rfl⟩
/-- R111: under the policy of a tick before every step the first event is a tick, and the step comes next. -/
theorem test_step_applies_the_next_event :
    after (step { base false with dt := 0x05, schedule := .tickEachStep }) (fun t => (t.dt, t.pc, t.cycle, t.nextEvent)) =
      some (0x04, 0x0200, 0, .coreStep) := by decide
/-- R126, R138: from reset any event may come next, because the free one is not known. -/
theorem test_reset_is_free : State.reset.nextEvent = Config.freeEvent 0 ∧ State.reset.advance.nextEvent = Config.freeEvent 1 :=
  ⟨rfl, rfl⟩

/-! ### Witnesses: for each statement with hypotheses a concrete state and operands that meet them, each clause at a boundary -/

theorem base_wf (wrap : Bool) : (base wrap).wf :=
  ⟨by cases wrap <;> decide, ⟨List.Pairwise.nil, by intro p hp; cases hp⟩, List.length_replicate .., Nat.zero_le _,
    List.length_replicate ..⟩

theorem poke_wf {s : State} (h : s.wf) {a : Nat} {l : List Byte} (ha : a + l.length ≤ s.cfg.memSize) : (poke s a l).wf :=
  ⟨h.1, storeBytes_wf h.2.1 ha, h.2.2⟩

/-- Fifteen and sixteen return addresses on the stack: one slot free, and none. -/
def deep (n : Nat) : State := { base false with sp := n }

theorem deep_wf {n : Nat} (h : n ≤ 16) : (deep n).wf := ⟨(base_wf false).1, (base_wf false).2.1, List.length_replicate .., h, List.length_replicate ..⟩

theorem witness_DecodesRow : (opcodeRows.all fun r => r.value &&& r.mask == r.value) = true := by rfl

theorem witness_DecodeOfEncodeIsIdentity :
    (Instr.drw 15 0 15).wf = true ∧ (Instr.jp 0xFFF#12).wf = true ∧ (Instr.ignored 0x8008#16).wf = true := by decide

/-- x is not VF, and x is VF: the two cases of the adds, subtracts and shifts; and the two masks of RND. -/
theorem witness_flag_register_cases : (14 : Reg) ≠ .vf ∧ (15 : Reg) = .vf ∧ (0x00 : Byte) ≠ 0xFF := by decide

theorem witness_CallPushesMarAndJumps :
    (deep 15).wf ∧ (deep 16).wf ∧ (0x1FF#12).toNat < 0x200 ∧ 0x200 ≤ (0x200#12).toNat ∧ (deep 15).sp < (deep 15).cfg.stackDepth ∧
      (deep 16).sp = (deep 16).cfg.stackDepth := ⟨deep_wf (by decide), deep_wf (by decide), by decide, by decide, by decide, by decide⟩

theorem witness_RetPopsIntoPc :
    (deep 1).wf ∧ 0 < (deep 1).sp ∧ (deep 0).wf ∧ (deep 0).sp = 0 ∧ (deep 0).cfg.retResume = .callSite ∧
      ({ base false with cfg := { Config.hardware with retResume := .afterCall } } : State).wf :=
  ⟨deep_wf (by decide), by decide, deep_wf (by decide), rfl, rfl,
    ⟨by decide, ⟨List.Pairwise.nil, by intro p hp; cases hp⟩, List.length_replicate .., Nat.zero_le _, List.length_replicate ..⟩⟩

theorem witness_ReturnComesBackToTheCall :
    (deep 15).wf ∧ 0x200 ≤ (0x200#12).toNat ∧ (deep 15).sp < (deep 15).cfg.stackDepth := ⟨deep_wf (by decide), by decide, by decide⟩

theorem witness_LdFPointsAtTheGlyph :
    ((regs [(3, 0x0F)]).getV 3).toNat < 16 ∧ 16 ≤ ((regs [(3, 0x10)]).getV 3).toNat := by decide

/-- I at 0x0FFE: two digits are in range and the last one is not; 0x0FFD is outside the stored bytes. -/
theorem witness_LdBStoresTheDecimalDigits :
    ((base false).setI 0x0FFE).wf ∧ (((base false).setI 0x0FFE).effAddr 0).toNat < 4096 ∧ (((base false).setI 0x0FFE).effAddr 1).toNat < 4096 ∧
      (((base false).setI 0x0FFD).effAddr 2).toNat < 4096 ∧ ∀ k < 3, (0x0FFD : Word) ≠ ((base false).setI 0x0FFE).effAddr k :=
  ⟨base_wf false, by decide, by decide, by decide, by decide⟩

theorem witness_StoreRegsStoresV0ToVx :
    ((base false).setI 0x0FF0).wf ∧ (((base false).setI 0x0FF0).effAddr (15 : Reg).val).toNat < 4096 ∧ (15 : Reg) ≤ 15 ∧
      ∀ r : Reg, r ≤ 15 → (0x0FEF : Word) ≠ ((base false).setI 0x0FF0).effAddr r.val :=
  ⟨base_wf false, by decide, by decide, by decide⟩

theorem witness_LoadRegsLoadsV0ToVx :
    (0 : Reg) ≤ 0 ∧ (0 : Reg) < 1 ∧ 4096 ≤ (((base false).setI 0x1000).effAddr (0 : Reg).val).toNat := by decide

theorem witness_LoadAfterStoreRestoresTheBlock :
    ((base false).setI 0x0FF0).wf ∧
      ∀ r : Reg, r ≤ 15 → (((base false).setI 0x0FF0).effAddr r.val).toNat < ((base false).setI 0x0FF0).cfg.memSize :=
  ⟨base_wf false, by decide⟩

theorem witness_ClsTurnsEveryPixelOff : 63 < (base false).cfg.dispW ∧ 31 < (base false).cfg.dispH ∧ (base false).cfg.wf :=
  ⟨by decide, by decide, (base_wf false).1⟩

/-- Both modes, at the last coordinates that do not stop: X = 127 and any Y in wrap mode, Y + n - 1 = 255 and any X without. -/
theorem witness_DrwFlipsThePixelsTheSpriteCovers :
    ((drawing true 127 255 [0xFF]).wf ∧ ¬((base true).cfg.drawWrap = true ∧ 2 * (base true).cfg.dispW ≤ (0x7F#8).toNat) ∧
      ¬(0 < (15 : Nibble).val ∧ 256 ≤ (0xFF#8).toNat + (15 : Nibble).val - 1 ∧
        ((base true).cfg.drawWrap = false ∨ 256 % (base true).cfg.dispH ≠ 0))) ∧
    ((drawing false 255 241 [0xFF]).wf ∧ ¬((base false).cfg.drawWrap = true ∧ 2 * (base false).cfg.dispW ≤ (0xFF#8).toNat) ∧
      ¬(0 < (15 : Nibble).val ∧ 256 ≤ (0xF1#8).toNat + (15 : Nibble).val - 1 ∧
        ((base false).cfg.drawWrap = false ∨ 256 % (base false).cfg.dispH ≠ 0))) :=
  ⟨⟨poke_wf (base_wf true) (by decide), by decide, by decide⟩, poke_wf (base_wf false) (by decide), by decide, by decide⟩

theorem witness_drw_collides_in_one_state_and_not_in_another :
    after (run 0xD121 ((drawing false 0 0 [0x80]).setDisplay ((List.replicate 256 0x00).set 0 0x80))) (·.getV 15) = some 0x01 ∧
      after (run 0xD121 (drawing false 0 0 [0x80])) (·.getV 15) = some 0x00 := by decide

theorem witness_DrwStopsExactlyWhereUnspecified :
    ((base true).cfg.drawWrap = true ∧ 2 * (base true).cfg.dispW ≤ (0x80#8).toNat) ∧
      (0 < (15 : Nibble).val ∧ 256 ≤ (0xF2#8).toNat + (15 : Nibble).val - 1 ∧ (base false).cfg.drawWrap = false) ∧
      stop (run 0xD121 (drawing true 128 0 [0xFF])) = some (.drwColumnOffScreen, 0x0202, 0x0200, 0) ∧
      stop (run 0xD12F (drawing false 0 242 [0xFF])) = some (.drwRowBeyondByte, 0x0202, 0x0200, 0) := by decide

theorem witness_TimerTickCountsDownToZero : (base false).paused = false ∧ (base false).stopped = false := by decide

theorem witness_KeySkipsTestTheCurrentKey :
    ((regs [(1, 0x0F)]).getV 1).toNat = (15 : Key).val ∧ 16 ≤ ((regs [(1, 0x10)]).getV 1).toNat := by decide

theorem witness_KeyWaitStoresTheLowestNewKey :
    (base false).watching = false ∧
      ((waiting []).watching = true ∧ ∀ k : Key, (waiting []).keys[k] = true → (waiting []).kprev[k] = true) ∧
      ((waiting [9, 3]).watching = true ∧ (waiting [9, 3]).keys[(3 : Key)] = true ∧ (waiting [9, 3]).kprev[(3 : Key)] = false ∧
        ∀ j : Key, j < 3 → (waiting [9, 3]).keys[j] = true → (waiting [9, 3]).kprev[j] = true) := by decide

/-- An instruction that completes and one that stops, neither of which reads the keys. -/
theorem witness_OnlyKeyInstructionsReadTheKeys :
    (∀ x, Instr.ldF 3 ≠ .skp x ∧ Instr.ldF 3 ≠ .sknp x ∧ Instr.ldF 3 ≠ .ldVxK x) ∧
      (∃ t, exec (.ldF 3) (regs [(3, 0x0F)]) = .next t) ∧ (∃ f, exec (.ldF 3) (regs [(3, 0x10)]) = .fault f) :=
  ⟨by decide, ⟨_, rfl⟩, ⟨_, rfl⟩⟩

/-- Reset memory holds the ignored word 0x0000 at 0x200; a completing and a stopping fetched instruction. -/
theorem witness_step_statements :
    (base false).nextEvent = .coreStep ∧ (base false).paused = false ∧ (base false).stopped = false ∧
      decodeWord ((base false).memRead16 (base false).pc) = .ignored 0x0000 ∧
      (∃ t, step (base false) = .next t) ∧ (∃ f, step ((regs [(3, 0x10)]).withFetchWord 16 0xF329) = .fault f) :=
  ⟨rfl, rfl, rfl, by decide, ⟨_, rfl⟩, ⟨_, rfl⟩⟩

theorem witness_WithFetchWordRunsThatWord :
    ((base false).setPc 0x0FFE).wf ∧ 0xFFFF < 2 ^ 16 ∧ ((base false).setPc 0x0FFE).pc.toNat + 1 < ((base false).setPc 0x0FFE).cfg.memSize :=
  ⟨base_wf false, by decide, by decide⟩

theorem witness_WordReadIsBigEndian :
    (0x0FFE : Word).toNat + 1 < (base false).cfg.memSize ∧ (base false).cfg.memSize ≤ (0x0FFF : Word).toNat + 1 ∧ (base false).wf :=
  ⟨by decide, by decide, base_wf false⟩

theorem witness_FetchBeyondMemoryIsIgnored :
    ((base false).setPc 0x0FFF).nextEvent = .coreStep ∧ ((base false).setPc 0x0FFF).paused = false ∧ ((base false).setPc 0x0FFF).stopped = false ∧
      ((base false).setPc 0x0FFF).cfg.memSize ≤ ((base false).setPc 0x0FFF).pc.toNat + 1 := by decide

theorem witness_HaltedStateStaysHalted :
    (poke (base false) 0x200 [0x12, 0x00]).nextEvent = .coreStep ∧ (poke (base false) 0x200 [0x12, 0x00]).paused = false ∧
      (poke (base false) 0x200 [0x12, 0x00]).stopped = false ∧ (poke (base false) 0x200 [0x12, 0x00]).haltedAt 0x0200 := by decide

/-- FF55 and F033 at 0x200 with I at 0x202: the store lands on the next instruction. -/
theorem witness_StoresAreFetchedByTheNextStep :
    let s := (poke (base false) 0x200 [0xFF, 0x55]).setI 0x0202
    let u := (poke (base false) 0x200 [0xF0, 0x33]).setI 0x0202
    (s.wf ∧ s.nextEvent = .coreStep ∧ s.paused = false ∧ s.stopped = false ∧ (s.pc + 2).toNat + 1 < s.cfg.memSize ∧
      decodeWord (s.memRead16 s.pc) = .storeRegs 15 ∧ s.effAddr 0 = s.pc + 2) ∧
    (u.wf ∧ u.nextEvent = .coreStep ∧ u.paused = false ∧ u.stopped = false ∧ (u.pc + 2).toNat + 1 < u.cfg.memSize ∧
      decodeWord (u.memRead16 u.pc) = .ldB 0 ∧ u.effAddr 0 = u.pc + 2) :=
  ⟨⟨poke_wf (base_wf false) (by decide), rfl, rfl, rfl, by decide, by decide, by decide⟩,
    poke_wf (base_wf false) (by decide), rfl, rfl, rfl, by decide, by decide, by decide⟩

theorem witness_InstructionsChangeOnlyTheirOwnParts : ∃ t, exec (.ldVxK 3) (waiting [7]) = .next t := ⟨_, rfl⟩

theorem witness_VfIsWrittenOnlyByItsWriters :
    (∃ t, exec (.ldReg 0 15) (base false) = .next t) ∧ ¬Claims.writesFlag (.ldReg 0 15) ∧ ¬Claims.writesVfAsDestination (.ldReg 0 15) :=
  ⟨⟨_, rfl⟩, id, show ¬(0 : Reg) = 15 by decide⟩

theorem witness_FlagsAreZeroOrOne :
    (∃ t, exec (.shl 14 0) (base false) = .next t) ∧ Claims.writesFlag (.shl 14 0) ∧ ¬Claims.shiftsVf (.shl 14 0) :=
  ⟨⟨_, rfl⟩, trivial, show ¬(14 : Reg) = 15 by decide⟩

theorem witness_PcIsWrittenInTheListedWaysOnly : ∃ t, exec (.jp 0x234#12) (base false) = .next t ∧ t.pc ≠ (base false).pc :=
  ⟨_, rfl, by decide⟩

theorem witness_UnspecifiedStopsAreTheListedOnes :
    let s := (regs [(3, 0x10)]).withFetchWord 16 0xF329
    ∃ f, step s = .fault f := ⟨_, rfl⟩

/-- The core's step and another event. -/
theorem witness_StepKeepsTheStateWellFormed :
    (base false).wf ∧ (∃ t, step (base false) = .next t) ∧ ∃ t, step { base false with schedule := .cons .stop .coreAlone } = .next t :=
  ⟨base_wf false, ⟨_, rfl⟩, ⟨_, rfl⟩⟩

/-- A state that waits on the `F30A` at 0x200, and its next step. -/
theorem witness_StepKeepsTheKeyWaitOnItsInstruction :
    let s : State := { poke (base false) 0x200 [0xF3, 0x0A] with watching := true, mar := 0x0200 }
    s.watching = true ∧ s.waitInv ∧ ∃ t, step s = .next t :=
  ⟨rfl, fun _ => ⟨rfl, 3, by decide⟩, ⟨_, rfl⟩⟩

theorem witness_MemoryRoundTrip :
    (base false).wf ∧ (0x0FFF : Word).toNat < (base false).cfg.memSize ∧ (0x0FFE : Word).toNat + 1 < (base false).cfg.memSize ∧
      (base false).cfg.memSize ≤ (0x1000 : Word).toNat ∧ (base false).cfg.memSize ≤ (0x0FFF : Word).toNat + 1 ∧ (0x0000 : Word) ≠ 0xFFFE ∧
      (0x0000 : Word) ≠ 0xFFFE + 1 := ⟨base_wf false, by decide, by decide, by decide, by decide, by decide, by decide⟩

theorem witness_PushAndPop :
    ((deep 15).wf ∧ (deep 15).sp < (deep 15).cfg.stackDepth ∧ 0 < (deep 15).sp) ∧ ((deep 16).wf ∧ (deep 16).sp = (deep 16).cfg.stackDepth) ∧
      ((deep 0).wf ∧ (deep 0).sp = 0) :=
  ⟨⟨deep_wf (by decide), by decide, by decide⟩, ⟨deep_wf (by decide), rfl⟩, deep_wf (by decide), rfl⟩

theorem witness_LoadProgramResetsTheCore : (List.replicate 3584 (0xFF : Byte)).length + 0x200 ≤ (base false).cfg.memSize := by
  rw [List.length_replicate]; decide

theorem witness_TooLongProgramIsRefused :
    (base false).wf ∧ (base false).cfg.memSize - 0x200 < (List.replicate 3585 (0xFF : Byte)).length :=
  ⟨base_wf false, by rw [List.length_replicate]; decide⟩

theorem witness_TooLongProgramIsRefused_at_launch :
    (base false).cfg.wf ∧ (base false).cfg.memSize - 0x200 < (List.replicate 3585 (0xFF : Byte)).length :=
  ⟨(base_wf false).1, by rw [List.length_replicate]; decide⟩

theorem witness_ResetIsTheLaunchState :
    ¬Config.wf { Config.hardware with dispW := 63 } ∧ ¬Config.wf { Config.hardware with memSize := 0x1FF } ∧ 80 ≤ (0x0050 : Word).toNat ∧
      (0x0FFF : Word).toNat < 4096 := by decide

theorem witness_PauseResumeAndStop :
    ((base false).setPaused true).paused = true ∧ (base false).stop.stopped = true ∧ ((base false).setPaused true).nextEvent = .coreStep ∧
      ((base false).setPaused true |>.setSchedule .tickEachStep).nextEvent = .timerTick := by decide

theorem witness_SetKeyStateSetsOneKey :
    (waiting []).watching = true ∧ (waiting []).kprev[(7 : Key)] = false ∧
      ∀ j : Key, j ≠ 7 → (waiting []).keys[j] = true → (waiting []).kprev[j] = true := by decide

end Sys2Proof.Tests
end

section
/-! PROOFS. The frame rule of each state operation: which parts of the state (`Part`) it may change. The fields that
an operation leaves are those of Laws/State, so its rule holds part by part. -/

namespace Sys2Proof.Machine

variable {s t u : State} {l l' : List Part}

/-! ### Frames in general -/

/-- A claim about every part is one claim for each. -/
theorem Part.forall_iff {P : Part → Prop} :
    (∀ p, P p) ↔ P .cfg ∧ P .v ∧ P .pc ∧ P .mar ∧ P .i ∧ P .dt ∧ P .st ∧ P .stack ∧ P .keys ∧ P .wait ∧ P .cycle ∧
      P .memory ∧ P .display ∧ P .paused ∧ P .stopped ∧ P .draws ∧ P .schedule :=
  ⟨fun h => ⟨h _, h _, h _, h _, h _, h _, h _, h _, h _, h _, h _, h _, h _, h _, h _, h _, h _⟩,
    fun h p => by cases p <;> simp only [h]⟩

theorem OnlyChanges.refl (l : List Part) (s : State) : OnlyChanges l s s := by
  simp [OnlyChanges, Part.forall_iff, Part.same]

theorem OnlyChanges.mono (h : OnlyChanges l s t) (hl : l ⊆ l') : OnlyChanges l' s t :=
  fun p hp => h p fun hm => hp (hl hm)

theorem Part.same_trans {p : Part} (h : p.same s t) (h' : p.same t u) : p.same s u := by
  cases p with
  | v | memory => exact fun a => (h' a).trans (h a)
  | stack | wait => exact ⟨h'.1.trans h.1, h'.2.trans h.2⟩
  | _ => exact Eq.trans h' h

theorem OnlyChanges.trans (h : OnlyChanges l s t) (h' : OnlyChanges l t u) : OnlyChanges l s u :=
  fun p hp => Part.same_trans (h p hp) (h' p hp)

/-! ### One rule for each operation -/

theorem onlyChanges_setV {r : Reg} {b : Byte} : OnlyChanges [.v] s (s.setV r b) := by
  simp [OnlyChanges, Part.forall_iff, Part.same]

theorem onlyChanges_setPc {a : Word} : OnlyChanges [.pc] s (s.setPc a) := by
  simp [OnlyChanges, Part.forall_iff, Part.same]

theorem onlyChanges_setI {a : Word} : OnlyChanges [.i] s (s.setI a) := by
  simp [OnlyChanges, Part.forall_iff, Part.same]

theorem onlyChanges_setDt {b : Byte} : OnlyChanges [.dt] s (s.setDt b) := by
  simp [OnlyChanges, Part.forall_iff, Part.same]

theorem onlyChanges_setSt {b : Byte} : OnlyChanges [.st] s (s.setSt b) := by
  simp [OnlyChanges, Part.forall_iff, Part.same]

theorem onlyChanges_setStack {slots : List Word} {n : Nat} : OnlyChanges [.stack] s (s.setStack slots n) := by
  simp [OnlyChanges, Part.forall_iff, Part.same]

theorem onlyChanges_push {w : Word} : OnlyChanges [.stack] s (s.push w) := onlyChanges_setStack

theorem onlyChanges_pop : OnlyChanges [.stack] s s.pop := onlyChanges_setStack

theorem onlyChanges_setWait {ks : Vector Bool 16} {w : Bool} : OnlyChanges [.wait] s (s.setWait ks w) := by
  simp [OnlyChanges, Part.forall_iff, Part.same]

theorem onlyChanges_setDisplay {d : List Byte} : OnlyChanges [.display] s (s.setDisplay d) := by
  simp [OnlyChanges, Part.forall_iff, Part.same]

theorem onlyChanges_nextDraw : OnlyChanges [.draws] s s.nextDraw := by
  simp [OnlyChanges, Part.forall_iff, Part.same]

theorem onlyChanges_memWrite8 {a : Word} {b : Byte} : OnlyChanges [.memory] s (s.memWrite8 a b) := by
  simp [OnlyChanges, Part.forall_iff, Part.same]

theorem onlyChanges_skipIf {c : Bool} : OnlyChanges [.pc] s (s.skipIf c) := onlyChanges_setPc

theorem onlyChanges_setResultFlag {x : Reg} {b : Byte} {f : Bool} :
    OnlyChanges [.v] s (s.setResultFlag x b f) := onlyChanges_setV.trans onlyChanges_setV

theorem onlyChanges_storeRegs {n : Nat} : OnlyChanges [.memory] s (s.storeRegs n) := by
  induction n with
  | zero => exact .refl _ s
  | succ n ih => exact ih.trans onlyChanges_memWrite8

theorem onlyChanges_loadRegs {n : Nat} : OnlyChanges [.v] s (s.loadRegs n) := by
  induction n with
  | zero => exact .refl _ s
  | succ n ih => exact ih.trans onlyChanges_setV

end Sys2Proof.Machine
end

section
/-! PROOFS. What the instructions that branch can do: for each, the ways in which it answers a next state. Every other
instruction answers the one next state that its meaning writes out. -/

namespace Sys2Proof.Machine

variable {s t : State}

theorem exec_ret_next {x : Nibble} (h : exec (.ret x) s = .next t) :
    (s.cfg.retResume = .callSite ∧ t = s.pop.setPc s.popValue) ∨
    (s.cfg.retResume = .afterCall ∧ t = s.pop.setPc (s.popValue + 2)) := by
  simp only [exec, execRet] at h
  split at h <;> cases h
  · exact .inl ⟨‹_›, rfl⟩
  · exact .inr ⟨‹_›, rfl⟩

theorem exec_call_next {nnn : Addr12} (h : exec (.call nnn) s = .next t) :
    (nnn.toNat < 0x200 ∧ t = s) ∨ (0x200 ≤ nnn.toNat ∧ t = (s.push s.mar).setPc (addr16 nnn)) := by
  simp only [exec, execCall, addr16_toNat] at h
  split at h <;> cases h
  · exact .inl ⟨‹_›, rfl⟩
  · exact .inr ⟨Nat.le_of_not_lt ‹_›, rfl⟩

theorem exec_drw_next {x y : Reg} {n : Nibble} (h : exec (.drw x y n) s = .next t) :
    drwUnspecified s.cfg (s.getV x).toNat (s.getV y).toNat n.val = none ∧
    t = (s.setDisplay (s.blit (s.getV x).toNat (s.getV y).toNat n.val).display).setV .vf
      (flagByte (s.blit (s.getV x).toNat (s.getV y).toNat n.val).collided) := by
  simp only [exec, execDrw] at h
  split at h <;> cases h
  exact ⟨‹_›, rfl⟩

theorem exec_skp_next {x : Reg} (h : exec (.skp x) s = .next t) :
    ∃ pressed, s.keyAt (s.getV x) = some pressed ∧ t = s.skipIf pressed := by
  simp only [exec, execSkp] at h
  split at h <;> cases h
  exact ⟨_, ‹_›, rfl⟩

theorem exec_sknp_next {x : Reg} (h : exec (.sknp x) s = .next t) :
    ∃ pressed, s.keyAt (s.getV x) = some pressed ∧ t = s.skipIf (!pressed) := by
  simp only [exec, execSknp] at h
  split at h <;> cases h
  exact ⟨_, ‹_›, rfl⟩

theorem exec_ldVxK_next {x : Reg} (h : exec (.ldVxK x) s = .next t) :
    (s.watching = true ∧ ∃ k, s.newKey = some k ∧ t = (s.setV x (BitVec.ofNat 8 k.val)).setWait s.kprev false) ∨
    ((s.watching = false ∨ s.newKey = none) ∧ t = (s.setWait s.keys true).setPc s.mar) := by
  simp only [exec, execLdVxK] at h
  split at h
  · split at h <;> cases h
    · exact .inl ⟨‹_›, _, ‹_›, rfl⟩
    · exact .inr ⟨.inr ‹_›, rfl⟩
  · cases h
    exact .inr ⟨.inl (Bool.eq_false_of_not_eq_true ‹_›), rfl⟩

theorem exec_ldStVx_next {x : Reg} (h : exec (.ldStVx x) s = .next t) :
    (s.getV x = 0 ∧ t = s) ∨ (s.getV x ≠ 0 ∧ t = s.setSt (s.getV x)) := by
  simp only [exec, execLdStVx, bne_iff_ne] at h
  split at h <;> cases h
  · exact .inr ⟨‹_›, rfl⟩
  · exact .inl ⟨Decidable.not_not.mp ‹_›, rfl⟩

theorem exec_ldF_next {x : Reg} (h : exec (.ldF x) s = .next t) :
    (s.getV x).toNat < 16 ∧ t = s.setI (BitVec.ofNat 16 (5 * (s.getV x).toNat)) := by
  simp only [exec, execLdF] at h
  split at h <;> cases h
  exact ⟨‹_›, rfl⟩

end Sys2Proof.Machine
end

section
/-! PROOFS. Well-formed states (10_state.md R17, R18, R22, R23): every instruction and every event keeps them. An operation
that writes neither memory, the stack nor the display keeps all that `State.wf` reads, so the invariant after it is the
invariant before it by unfolding. -/

namespace Sys2Proof.Machine

variable {s t : State}

/-- A display of the same length keeps the state well formed. -/
theorem State.wf_setDisplay (h : s.wf) {d : List Byte} (hd : d.length = s.cfg.dispBytes) : (s.setDisplay d).wf := by
  obtain ⟨hcfg, hmem, hslots, hsp, -⟩ := h
  exact ⟨hcfg, hmem, hslots, hsp, hd⟩

/-- A sprite keeps the number of display bytes, and so the state well formed. -/
theorem State.wf_setDisplay_blit (h : s.wf) (x y n : Nat) : (s.setDisplay (s.blit x y n).display).wf := by
  refine State.wf_setDisplay h ?_
  obtain ⟨-, -, -, -, hdisplay⟩ := h
  rw [s.blit_length, hdisplay]

/-- The load loop writes registers only, so it keeps the state well formed. -/
theorem State.wf_loadRegs (h : s.wf) (n : Nat) : (s.loadRegs n).wf := by
  induction n with
  | zero => exact h
  | succ n ih => exact ih

theorem exec_keeps_wf {i : Instr} (hs : s.wf) (h : exec i s = .next t) : t.wf := by
  cases i with
  | cls x => cases h; exact State.wf_setDisplay hs List.length_replicate
  | ret x => obtain ⟨-, rfl⟩ | ⟨-, rfl⟩ := exec_ret_next h <;> exact State.wf_pop hs
  | call nnn =>
    obtain ⟨-, rfl⟩ | ⟨-, rfl⟩ := exec_call_next h
    · exact hs
    · exact State.wf_push hs s.mar
  | drw x y n =>
    obtain ⟨-, rfl⟩ := exec_drw_next h
    exact State.wf_setDisplay_blit hs ..
  | skp x => obtain ⟨_, -, rfl⟩ := exec_skp_next h; exact hs
  | sknp x => obtain ⟨_, -, rfl⟩ := exec_sknp_next h; exact hs
  | ldVxK x => obtain ⟨-, _, -, rfl⟩ | ⟨-, rfl⟩ := exec_ldVxK_next h <;> exact hs
  | ldStVx x => obtain ⟨-, rfl⟩ | ⟨-, rfl⟩ := exec_ldStVx_next h <;> exact hs
  | ldF x => obtain ⟨-, rfl⟩ := exec_ldF_next h; exact hs
  | ldB x => cases h; exact State.wf_memWrite8 (State.wf_memWrite8 (State.wf_memWrite8 hs _ _) _ _) _ _
  | storeRegs x => cases h; exact (State.storeRegs_spec hs x.isLt).1
  | loadRegs x => cases h; exact State.wf_loadRegs hs _
  | _ => cases h; exact hs

theorem applyEvent_keeps_wf {e : Event} (hs : s.wf) (h : applyEvent e s = .next t) : t.wf := by
  obtain ⟨-, h⟩ | ⟨-, rfl⟩ | ⟨k, b, -, rfl⟩ | ⟨-, rfl⟩ | ⟨-, rfl⟩ | ⟨-, rfl⟩ := applyEvent_next_cases h
  · obtain ⟨-, rfl⟩ | ⟨-, u, hu, rfl⟩ := coreStep_next_cases h
    · exact hs
    · have hfetched : s.fetched.wf := hs
      have hu : u.wf := exec_keeps_wf hfetched hu
      exact hu
  · split <;> exact hs
  all_goals exact hs

/-- Settles O51: the step is one event on the state with that event off the schedule, and every event keeps the invariant. -/
theorem stepKeepsTheStateWellFormed : Obligations.StepKeepsTheStateWellFormed := by
  intro s t hs h
  have hadvance : s.advance.wf := hs
  exact applyEvent_keeps_wf hadvance h

end Sys2Proof.Machine
end

section
/-! PROOFS. The keys (10_state.md R19): every instruction but `Ex9E`, `ExA1` and `Fx0A` does the same under other keys. -/

namespace Sys2Proof.Machine

/-- The same machine with other keys pressed. -/
def State.withKeys (s : State) (ks : Vector Bool 16) : State := { s with keys := ks }

/-- The outcome, with the keys of the state it names replaced. -/
def Result.withKeys (ks : Vector Bool 16) : Result → Result
  | .next t => .next (t.withKeys ks)
  | .fault (.unspecified r u) => .fault (.unspecified r (u.withKeys ks))
  | .refused r => .refused r

variable (s : State) (ks : Vector Bool 16)

@[simp] theorem State.withKeys_cfg : (s.withKeys ks).cfg = s.cfg := rfl
@[simp] theorem State.getV_withKeys (r : Reg) : (s.withKeys ks).getV r = s.getV r := rfl

theorem State.storeRegs_withKeys (n : Nat) : (s.withKeys ks).storeRegs n = (s.storeRegs n).withKeys ks := by
  induction n with
  | zero => rfl
  | succ n ih => rw [State.storeRegs, ih]; rfl

theorem State.loadRegs_withKeys (n : Nat) : (s.withKeys ks).loadRegs n = (s.loadRegs n).withKeys ks := by
  induction n with
  | zero => rfl
  | succ n ih => rw [State.loadRegs, ih]; rfl

theorem State.blit_withKeys (x y n : Nat) : (s.withKeys ks).blit x y n = s.blit x y n := by
  induction n with
  | zero => rfl
  | succ n ih => rw [State.blit, ih]; rfl

/-- The noninterference behind R19: replacing the keys before the instruction is replacing them after it. -/
theorem exec_withKeys {i : Instr} (hi : ∀ x, i ≠ .skp x ∧ i ≠ .sknp x ∧ i ≠ .ldVxK x) :
    exec i (s.withKeys ks) = Result.withKeys ks (exec i s) := by
  cases i with
  | skp x => exact absurd rfl (hi x).1
  | sknp x => exact absurd rfl (hi x).2.1
  | ldVxK x => exact absurd rfl (hi x).2.2
  | ret x => simp only [exec, execRet, State.withKeys_cfg]; split <;> rfl
  | call nnn => simp only [exec, execCall]; split <;> rfl
  | drw x y n =>
    simp only [exec, execDrw, State.withKeys_cfg, State.getV_withKeys, State.blit_withKeys]
    split <;> rfl
  | ldStVx x => by_cases h : (s.getV x != 0) = true <;> simp only [exec, execLdStVx, State.getV_withKeys, h] <;> rfl
  | ldF x => by_cases h : (s.getV x).toNat < 16 <;> simp only [exec, execLdF, State.getV_withKeys, h] <;> rfl
  | storeRegs x => simp only [exec, execStoreRegs, State.storeRegs_withKeys]; rfl
  | loadRegs x => simp only [exec, execLoadRegs, State.loadRegs_withKeys]; rfl
  | _ => rfl

/-- Settles O38: both clauses read the two kinds of outcome off `exec_withKeys`. -/
theorem onlyKeyInstructionsReadTheKeys : Obligations.OnlyKeyInstructionsReadTheKeys := by
  intro i s ks hi
  have hexec := exec_withKeys s ks hi
  refine ⟨fun t h => ?_, fun f h => ?_⟩
  · rw [h] at hexec; exact hexec
  · obtain ⟨r, u⟩ := f
    rw [h] at hexec
    exact ⟨_, hexec⟩

end Sys2Proof.Machine
end

section
/-! PROOFS. What an instruction changes of the state, of VF and of PC (10_state.md R9, R10, R12 to R24). -/

namespace Sys2Proof.Machine
open Sys2Proof.Claims

variable {s t : State} {i : Instr}

/-! ### The frame of an instruction -/

/-- Every instruction is a composition of operations whose frames lie in its list. -/
theorem exec_onlyChanges (h : exec i s = .next t) : OnlyChanges (mayChange i) s t := by
  cases i with
  | cls x => cases h; exact onlyChanges_setDisplay
  | ret x =>
    have hframe (w : Word) : OnlyChanges [.pc, .stack] s (s.pop.setPc w) :=
      (onlyChanges_pop.mono (by simp)).trans (onlyChanges_setPc.mono (by simp))
    obtain ⟨-, rfl⟩ | ⟨-, rfl⟩ := exec_ret_next h <;> exact hframe _
  | call nnn =>
    obtain ⟨-, rfl⟩ | ⟨-, rfl⟩ := exec_call_next h
    · exact .refl _ _
    · exact (onlyChanges_push.mono (by simp [mayChange])).trans (onlyChanges_setPc.mono (by simp [mayChange]))
  | jp | jpV0 => cases h; exact onlyChanges_setPc
  | seByte | sneByte | seReg | sneReg => cases h; exact onlyChanges_skipIf
  | skp x => obtain ⟨_, -, rfl⟩ := exec_skp_next h; exact onlyChanges_skipIf
  | sknp x => obtain ⟨_, -, rfl⟩ := exec_sknp_next h; exact onlyChanges_skipIf
  | ldByte | ldReg | orReg | andReg | xorReg | ldVxDt => cases h; exact onlyChanges_setV
  | addByte | addReg | subReg | subnReg => cases h; exact onlyChanges_setResultFlag
  | shr | shl => cases h; exact onlyChanges_setV.trans onlyChanges_setV
  | rnd x kk =>
    cases h
    exact (onlyChanges_nextDraw.mono (by simp [mayChange])).trans (onlyChanges_setV.mono (by simp [mayChange]))
  | drw x y n =>
    obtain ⟨-, rfl⟩ := exec_drw_next h
    exact (onlyChanges_setDisplay.mono (by simp [mayChange])).trans (onlyChanges_setV.mono (by simp [mayChange]))
  | ldVxK x =>
    obtain ⟨-, _, -, rfl⟩ | ⟨-, rfl⟩ := exec_ldVxK_next h
    · exact (onlyChanges_setV.mono (by simp [mayChange])).trans (onlyChanges_setWait.mono (by simp [mayChange]))
    · exact (onlyChanges_setWait.mono (by simp [mayChange])).trans (onlyChanges_setPc.mono (by simp [mayChange]))
  | ldDtVx x => cases h; exact onlyChanges_setDt
  | ldStVx x =>
    obtain ⟨-, rfl⟩ | ⟨-, rfl⟩ := exec_ldStVx_next h
    · exact .refl _ _
    · exact onlyChanges_setSt
  | ldI | addI => cases h; exact onlyChanges_setI
  | ldF x => obtain ⟨-, rfl⟩ := exec_ldF_next h; exact onlyChanges_setI
  | ldB x =>
    cases h
    exact (onlyChanges_memWrite8.trans onlyChanges_memWrite8).trans onlyChanges_memWrite8
  | storeRegs x => cases h; exact onlyChanges_storeRegs
  | loadRegs x => cases h; exact onlyChanges_loadRegs
  | ignored w => cases h; exact .refl _ _

/-- Settles O46: it is the frame of an instruction. -/
theorem instructionsChangeOnlyTheirOwnParts : Obligations.InstructionsChangeOnlyTheirOwnParts :=
  fun _ _ _ h => exec_onlyChanges h

/-! ### VF -/

theorem State.getV_setV_of_ne {r q : Reg} (hq : q ≠ r) (b : Byte) : (s.setV r b).getV q = s.getV q := by
  rw [State.getV_setV, if_neg hq]

/-- A load that does not reach VF leaves it. -/
theorem State.getV_vf_loadRegs {x : Reg} (hx : x ≠ .vf) : (s.loadRegs (x.val + 1)).getV .vf = s.getV .vf := by
  have hlt : x.val < Reg.vf.val := Nat.lt_of_le_of_ne (Nat.le_of_lt_succ x.isLt) fun h => hx (Fin.ext h)
  obtain ⟨-, hread⟩ := s.loadRegs_spec (Nat.succ_le_of_lt x.isLt)
  rw [hread, if_neg (Nat.not_lt_of_le hlt)]

/-- Settles O47: an instruction with a register destination writes that register, which is not VF; every other one that is
not a flag writer writes no register at all. -/
theorem vfIsWrittenOnlyByItsWriters : Obligations.VfIsWrittenOnlyByItsWriters := by
  intro i s t h hflag hdest
  cases i with
  | addByte | addReg | subReg | subnReg | shr | shl | drw => exact absurd trivial hflag
  | ldByte | ldReg | orReg | andReg | xorReg | rnd | ldVxDt => cases h; exact State.getV_setV_of_ne (Ne.symm hdest) _
  | ldVxK x =>
    obtain ⟨-, _, -, rfl⟩ | ⟨-, rfl⟩ := exec_ldVxK_next h
    · exact State.getV_setV_of_ne (Ne.symm hdest) _
    · rfl
  | loadRegs x => cases h; exact State.getV_vf_loadRegs hdest
  | _ => exact exec_onlyChanges h .v (by simp [mayChange]) .vf

theorem flagByte_eq_zero_or_one (f : Bool) : flagByte f = 0x00 ∨ flagByte f = 0x01 := by cases f <;> decide

/-- The lowest bit of a byte is 0 or 1. -/
theorem and_one_eq_zero_or_one (b : Byte) : b &&& 0x01 = 0x00 ∨ b &&& 0x01 = 0x01 := by
  have hmod : (b &&& 0x01).toNat = b.toNat % 2 := by rw [BitVec.toNat_and]; exact Nat.and_one_is_mod _
  rw [← BitVec.toNat_inj, ← BitVec.toNat_inj, hmod]
  exact Nat.mod_two_eq_zero_or_one _

/-- Settles O48: the last write to VF is a flag byte or a single bit, since a shift of another register leaves the bit. -/
theorem flagsAreZeroOrOne : Obligations.FlagsAreZeroOrOne := by
  intro i s t h hflag hshift
  cases i with
  | addByte | addReg | subReg | subnReg =>
    cases h
    rw [State.getV_setResultFlag, if_pos rfl]
    exact flagByte_eq_zero_or_one _
  | shr | shl =>
    cases h
    rw [State.getV_setV_of_ne (Ne.symm hshift), State.getV_setV, if_pos rfl]
    exact and_one_eq_zero_or_one _
  | drw x y n =>
    obtain ⟨-, rfl⟩ := exec_drw_next h
    rw [State.getV_setV, if_pos rfl]
    exact flagByte_eq_zero_or_one _
  | _ => exact hflag.elim

/-! ### PC -/

/-- A skip that moves PC moves it up by 2. -/
theorem State.skipIf_pc_of_ne {c : Bool} (h : (s.skipIf c).pc ≠ s.pc) : (s.skipIf c).pc = s.pc + 2 := by
  cases c with
  | false => exact absurd rfl h
  | true => rfl

/-- The target of `Bnnn` is the exact sum: 12 bits and 8 bits do not wrap (42_control_flow.md R84). -/
theorem jpV0_target_toNat (nnn : Addr12) (b : Byte) : (addr16 nnn + byte16 b).toNat = nnn.toNat + b.toNat := by
  have hn := nnn.isLt
  have hb := b.isLt
  rw [BitVec.toNat_add, addr16_toNat, byte16_toNat, Nat.mod_eq_of_lt (by omega)]

/-- Settles O49: each instruction whose frame holds PC writes it in the way listed for it; no other changes PC. -/
theorem pcIsWrittenInTheListedWaysOnly : Obligations.PcIsWrittenInTheListedWaysOnly := by
  intro i s t h hpc
  cases i with
  | seByte x kk => cases h; exact .inl ⟨⟨x, kk, .inl rfl⟩, State.skipIf_pc_of_ne hpc⟩
  | sneByte x kk => cases h; exact .inl ⟨⟨x, kk, .inr rfl⟩, State.skipIf_pc_of_ne hpc⟩
  | seReg x y n => cases h; exact .inr (.inl ⟨⟨x, y, n, .inl rfl⟩, State.skipIf_pc_of_ne hpc⟩)
  | sneReg x y n => cases h; exact .inr (.inl ⟨⟨x, y, n, .inr rfl⟩, State.skipIf_pc_of_ne hpc⟩)
  | skp x =>
    obtain ⟨_, -, rfl⟩ := exec_skp_next h
    exact .inr (.inr (.inl ⟨⟨x, .inl rfl⟩, State.skipIf_pc_of_ne hpc⟩))
  | sknp x =>
    obtain ⟨_, -, rfl⟩ := exec_sknp_next h
    exact .inr (.inr (.inl ⟨⟨x, .inr rfl⟩, State.skipIf_pc_of_ne hpc⟩))
  | jp nnn => cases h; exact .inr (.inr (.inr (.inl ⟨nnn, rfl, addr16_toNat nnn⟩)))
  | jpV0 nnn => cases h; exact .inr (.inr (.inr (.inr (.inl ⟨nnn, rfl, jpV0_target_toNat ..⟩))))
  | call nnn =>
    obtain ⟨-, rfl⟩ | ⟨htarget, rfl⟩ := exec_call_next h
    · exact absurd rfl hpc
    · exact .inr (.inr (.inr (.inr (.inr (.inl ⟨nnn, rfl, htarget, addr16_toNat nnn⟩)))))
  | ret x => exact .inr (.inr (.inr (.inr (.inr (.inr (.inl ⟨x, rfl⟩))))))
  | ldVxK x =>
    obtain ⟨-, _, -, rfl⟩ | ⟨-, rfl⟩ := exec_ldVxK_next h
    · exact absurd rfl hpc
    · exact .inr (.inr (.inr (.inr (.inr (.inr (.inr ⟨⟨x, rfl⟩, rfl⟩))))))
  | _ => exact absurd (exec_onlyChanges h .pc (by simp [mayChange])) hpc

end Sys2Proof.Machine
end

section
/-! PROOFS. The state after reset (10_state.md R31, 70_reset_and_hazards.md R144). -/

namespace Sys2Proof.Machine

theorem Config.hardware_wf : Config.hardware.wf := by decide

/-- Memory with nothing listed reads 0x00 past the font (20_memory.md R43). -/
theorem Memory.read_nil_of_ge (font : Vector Byte 80) {a : Nat} (h : 80 ≤ a) : Memory.read font [] a = 0x00 :=
  List.getD_eq_default _ _ (by rwa [Vector.length_toList])

theorem State.reset_wf : State.reset.wf :=
  ⟨Config.hardware_wf, ⟨.nil, by simp [State.reset]⟩, List.length_replicate, Nat.zero_le _, List.length_replicate⟩

/-- Settles O53: at reset nothing is listed in memory, and the core is not watching. -/
theorem resetMeetsTheInvariants : Obligations.ResetMeetsTheInvariants :=
  ⟨State.reset_wf, fun hwatching => absurd hwatching Bool.false_ne_true⟩

theorem State.getV_reset (r : Reg) : State.reset.getV r = 0x00 := Vector.getElem_replicate _

theorem State.memRead8_reset {a : Word} (hfont : 80 ≤ a.toNat) (hsize : a.toNat < 4096) : State.reset.memRead8 a = 0x00 := by
  rw [State.memRead8, if_pos (show a.toNat < State.reset.cfg.memSize from hsize)]
  exact Memory.read_nil_of_ge _ hfont

/-- An empty program loaded into the machine as constructed leaves it as reset gives it. -/
theorem launch_hardware_empty : launch Config.hardware false [] = .next State.reset := by
  rw [launch, if_pos Config.hardware_wf]
  rfl

theorem launch_of_not_wf {c : Config} (hc : ¬c.wf) (b : Bool) (p : List Byte) :
    launch c b p = .refused .illegalConfiguration := if_neg hc

/-- Settles O58: the launch, the refusal, and the values of the reset state. -/
theorem resetIsTheLaunchState : Obligations.ResetIsTheLaunchState :=
  ⟨launch_hardware_empty, fun _ b p hc => launch_of_not_wf hc b p, rfl, rfl, rfl, rfl, State.getV_reset,
    fun _ => State.memRead8_reset⟩

end Sys2Proof.Machine
end

section
/-! PROOFS. The memory and stack accessors in range and out of range (20_memory.md R32 to R40, R50). -/

namespace Sys2Proof.Machine

variable {s : State} {a : Word}

/-! ### Out of range (20_memory.md R32 to R35) -/

theorem State.memRead8_of_ge (h : s.cfg.memSize ≤ a.toNat) : s.memRead8 a = 0xFF := if_neg (Nat.not_lt.mpr h)

theorem State.memRead16_of_ge (h : s.cfg.memSize ≤ a.toNat + 1) : s.memRead16 a = 0xFFFF := if_neg (Nat.not_lt.mpr h)

theorem State.memWrite8_of_ge (h : s.cfg.memSize ≤ a.toNat) (b : Byte) : s.memWrite8 a b = s := by
  rw [State.memWrite8, if_neg (Nat.not_lt.mpr h)]
  rfl

theorem State.memWrite16_of_ge (h : s.cfg.memSize ≤ a.toNat + 1) (w : Word) : s.memWrite16 a w = s := by
  rw [State.memWrite16, if_neg (Nat.not_lt.mpr h)]
  rfl

/-! ### Bytes after a byte write (20_memory.md R32, R34) -/

theorem State.memRead8_memWrite8_same (hs : s.wf) (h : a.toNat < s.cfg.memSize) (b : Byte) :
    (s.memWrite8 a b).memRead8 a = b := by
  rw [State.memRead8_memWrite8 hs, if_pos ⟨rfl, h⟩]

theorem State.memRead8_memWrite8_of_ne (hs : s.wf) {c : Word} (hc : c ≠ a) (b : Byte) :
    (s.memWrite8 a b).memRead8 c = s.memRead8 c := by
  rw [State.memRead8_memWrite8 hs, if_neg fun h => hc h.1]

/-! ### Words in range (20_memory.md R33, R35, R40) -/

theorem State.memRead16_toNat (h : a.toNat + 1 < s.cfg.memSize) :
    (s.memRead16 a).toNat = (s.byteAt a.toNat).toNat * 2 ^ 8 + (s.byteAt (a.toNat + 1)).toNat := by
  rw [State.memRead16, if_pos h]
  exact joinBytes_toNat ..

/-- The address of a word's second byte does not wrap: memory has at most 2^16 bytes (00_scope.md R5). -/
theorem State.toNat_add_one (hs : s.wf) (h : a.toNat + 1 < s.cfg.memSize) : (a + 1).toNat = a.toNat + 1 := by
  obtain ⟨⟨-, hsize, -⟩, -⟩ := hs
  exact BitVec.toNat_add_of_lt (Nat.lt_of_lt_of_le h hsize)

theorem State.memWrite16_eq_memWrite8 (hs : s.wf) (h : a.toNat + 1 < s.cfg.memSize) (w : Word) :
    s.memWrite16 a w = (s.memWrite8 a (highByte w)).memWrite8 (a + 1) (lowByte w) := by
  rw [State.memWrite16, if_pos h, State.memWrite8, State.memWrite8, State.setMem_cfg, State.toNat_add_one hs h,
    if_pos (Nat.lt_of_succ_lt h), if_pos h]
  rfl

/-- A word write, in range or not, leaves every byte but its two. -/
theorem State.memRead8_memWrite16_of_ne (hs : s.wf) {c : Word} (hhigh : c ≠ a) (hlow : c ≠ a + 1) (w : Word) :
    (s.memWrite16 a w).memRead8 c = s.memRead8 c := by
  obtain h | h := Nat.lt_or_ge (a.toNat + 1) s.cfg.memSize
  · rw [State.memWrite16_eq_memWrite8 hs h, State.memRead8_memWrite8_of_ne (State.wf_memWrite8 hs _ _) hlow,
      State.memRead8_memWrite8_of_ne hs hhigh]
  · rw [State.memWrite16_of_ge h]

/-- Settles O54: the reads after a write in range, and both accesses out of range. -/
theorem memoryRoundTrip : Obligations.MemoryRoundTrip := by
  intro s a b w hs
  exact ⟨fun h => State.memRead8_memWrite8_same hs h b, fun c hc => State.memRead8_memWrite8_of_ne hs hc b,
    fun h => State.memRead16_memWrite16 hs h w, fun c hhigh hlow => State.memRead8_memWrite16_of_ne hs hhigh hlow w,
    fun h => ⟨State.memRead8_of_ge h, State.memWrite8_of_ge h b⟩,
    fun h => ⟨State.memRead16_of_ge h, State.memWrite16_of_ge h w⟩⟩

/-- Settles O42: no memory is large enough for a word at 0xFFFF, so the last clause is the second. -/
theorem wordReadIsBigEndian : Obligations.WordReadIsBigEndian := by
  refine fun s a => ⟨State.memRead16_toNat, State.memRead16_of_ge, fun hs => ?_⟩
  obtain ⟨⟨-, hsize, -⟩, -⟩ := hs
  exact State.memRead16_of_ge hsize

/-! ### Stack (20_memory.md R38, R39) -/

theorem State.push_of_lt (h : s.sp < s.cfg.stackDepth) (w : Word) :
    s.push w = s.setStack (s.stack.set s.sp w) (s.sp + 1) := by
  rw [State.push, if_pos h, if_pos h]

theorem State.push_of_ge (h : s.cfg.stackDepth ≤ s.sp) (w : Word) : s.push w = s := by
  rw [State.push, if_neg (Nat.not_lt.mpr h), if_neg (Nat.not_lt.mpr h)]
  rfl

/-- SP is at most the number of slots, so slot SP - 1 exists. -/
theorem State.some_popValue (hs : s.wf) (h : 0 < s.sp) : some s.popValue = s.stack[s.sp - 1]? := by
  obtain ⟨-, -, hslots, hsp, -⟩ := hs
  have htop : s.sp - 1 < s.stack.length := by omega
  rw [State.popValue, if_pos h, List.getD_eq_getElem _ _ htop, List.getElem?_eq_getElem htop]

theorem State.pop_of_sp_eq_zero (h : s.sp = 0) : s.pop = s := by
  rw [State.pop, Nat.sub_eq_zero_of_le (by omega), ← h]
  rfl

/-- Settles O55: a push with and without a free slot, a pop with and without an occupied one, and the frames of both. -/
theorem pushAndPop : Obligations.PushAndPop := by
  intro s w hs
  refine ⟨fun hfree => ?_, fun hfull => State.push_of_ge hfull.ge w,
    fun hpos => ⟨State.some_popValue hs hpos, Nat.sub_add_cancel hpos, rfl⟩,
    fun hempty => ⟨if_neg (Nat.not_lt.mpr hempty.le), State.pop_of_sp_eq_zero hempty⟩, onlyChanges_push, onlyChanges_pop⟩
  obtain ⟨-, -, hslots, -⟩ := hs
  rw [State.push_of_lt hfree]
  exact ⟨rfl, List.getElem?_set_self (hslots ▸ hfree), fun j hj => List.getElem?_set_ne hj.symm⟩

end Sys2Proof.Machine
end

section
/-! PROOFS. A store over the next instruction word (20_memory.md R47, 70_reset_and_hazards.md R148): what a word read finds
where `Fx55` and `Fx33` have stored two bytes in a row. -/

namespace Sys2Proof.Machine

variable {s : State}

theorem State.effAddr_add_one (s : State) (k : Nat) : s.effAddr k + 1 = s.effAddr (k + 1) := by
  rw [State.effAddr, State.effAddr, BitVec.ofNat_add, BitVec.add_assoc]
  rfl

theorem State.effAddr_ne (s : State) {j k : Nat} (hj : j < 16) (hk : k < 16) (h : j ≠ k) : s.effAddr j ≠ s.effAddr k :=
  mt (s.effAddr_inj hj hk).mp h

/-- The store loop of `Fx55`, read at one of its own addresses (43_index_and_memory.md R97). -/
theorem State.memRead8_storeRegs (hs : s.wf) {n k : Nat} (hn : n ≤ 16) (hk : k < n)
    (hin : (s.effAddr k).toNat < s.cfg.memSize) : (s.storeRegs n).memRead8 (s.effAddr k) = s.getV (regOf k) := by
  obtain ⟨-, -, hread⟩ := State.storeRegs_spec hs hn
  rw [hread, if_pos ⟨hin, k, hk, rfl⟩, s.effAddr_sub (by omega)]

theorem State.memRead16_storeRegs (hs : s.wf) {n k : Nat} (hn : n ≤ 16) (hk : k + 1 < n)
    (hin : (s.effAddr k).toNat + 1 < s.cfg.memSize) :
    (s.storeRegs n).memRead16 (s.effAddr k) = joinBytes (s.getV (regOf k)) (s.getV (regOf (k + 1))) := by
  obtain ⟨hwf, heq, -⟩ := State.storeRegs_spec hs hn
  have hcfg : (s.storeRegs n).cfg = s.cfg := by rw [heq]; rfl
  have hnext : (s.effAddr (k + 1)).toNat = (s.effAddr k).toNat + 1 := by
    rw [← State.effAddr_add_one, State.toNat_add_one hs hin]
  rw [State.memRead16_eq_joinBytes hwf (hcfg ▸ hin), State.effAddr_add_one,
    State.memRead8_storeRegs hs hn (Nat.lt_of_succ_lt hk) (Nat.lt_of_succ_lt hin),
    State.memRead8_storeRegs hs hn hk (hnext ▸ hin)]

/-- `Fx33` answers a state with the PC it began with, whose word at I is the hundreds and the tens digit of Vx
(43_index_and_memory.md R96): the digits at I and I + 1 are not the one stored last. -/
theorem exec_ldB_word (hs : s.wf) (x : Reg) (hin : (s.effAddr 0).toNat + 1 < s.cfg.memSize) :
    ∃ t, exec (.ldB x) s = .next t ∧ t.pc = s.pc ∧
      t.memRead16 (s.effAddr 0) = joinBytes (s.getV x / 100) (s.getV x / 10 % 10) := by
  have hhigh : State.wf (s.memWrite8 (s.effAddr 0) (s.getV x / 100)) := State.wf_memWrite8 hs _ _
  have hlow := State.wf_memWrite8 hhigh (s.effAddr 1) (s.getV x / 10 % 10)
  have hone : (s.effAddr 1).toNat = (s.effAddr 0).toNat + 1 := by
    rw [← State.toNat_add_one hs hin, State.effAddr_add_one]
  have h01 : s.effAddr 0 ≠ s.effAddr 1 := s.effAddr_ne (by decide) (by decide) (by decide)
  have h02 : s.effAddr 0 ≠ s.effAddr 2 := s.effAddr_ne (by decide) (by decide) (by decide)
  have h12 : s.effAddr 1 ≠ s.effAddr 2 := s.effAddr_ne (by decide) (by decide) (by decide)
  refine ⟨_, rfl, rfl, ?_⟩
  rw [State.memRead16_eq_joinBytes (State.wf_memWrite8 hlow _ _) hin, State.effAddr_add_one,
    State.memRead8_memWrite8_of_ne hlow h02, State.memRead8_memWrite8_of_ne hlow h12, State.memRead8_memWrite8_of_ne hhigh h01,
    State.memRead8_memWrite8_same hs (Nat.lt_of_succ_lt hin), State.memRead8_memWrite8_same hhigh (hone ▸ hin)]

/-- An instruction that answers a next state makes the core's step answer it, counted. -/
theorem step_eq_next {i : Instr} {u : State} (h : s.nextEvent = .coreStep) (hrun : s.running = true)
    (hdecode : decodeWord (s.memRead16 s.pc) = i) (hexec : exec i s.advance.fetched = .next u) : step s = .next u.counted := by
  rw [step_of_running h hrun, hdecode, hexec]
  rfl

/-- Settles O45: each store runs on the fetched state, whose PC is the address of the word it stores over. -/
theorem storesAreFetchedByTheNextStep : Obligations.StoresAreFetchedByTheNextStep := by
  intro x s hs hevent hpaused hstopped hin
  have hrun := State.running_of hpaused hstopped
  have hwf : s.advance.fetched.wf := hs
  refine ⟨fun k hk hdecode haddr => ?_, fun hdecode haddr => ?_⟩
  · have hpc : (s.advance.fetched.storeRegs (x.val + 1)).pc = s.pc + 2 := onlyChanges_storeRegs .pc (by simp)
    refine ⟨_, step_eq_next hevent hrun hdecode rfl, hpc, ?_⟩
    rw [State.memRead16_counted, State.counted_pc, hpc, ← haddr]
    exact State.memRead16_storeRegs hwf x.isLt (Nat.succ_lt_succ hk) (haddr ▸ hin)
  · obtain ⟨u, hexec, hpc, hword⟩ := exec_ldB_word hwf x (haddr ▸ hin)
    refine ⟨_, step_eq_next hevent hrun hdecode hexec, hpc, ?_⟩
    have hpcAddr : u.pc = s.advance.fetched.effAddr 0 := hpc.trans haddr.symm
    rw [State.memRead16_counted, State.counted_pc, hpcAddr, hword, joinBytes_toNat]
    simp

end Sys2Proof.Machine
end

section
/-! PROOFS. The opcode map (30_encoding.md R55, R56): no word selects two of its rows, and which words select none. -/

namespace Sys2Proof

variable {w : Word} {r q : OpcodeRow}

/-! ### The rows as data -/

/-- Two rows that differ in a bit which both masks keep have no word in common. -/
theorem OpcodeRow.disjoint_of_common_bits (h : r.value &&& q.mask ≠ q.value &&& r.mask) (w : Word) :
    ¬(w &&& r.mask = r.value ∧ w &&& q.mask = q.value) := by
  rintro ⟨hr, hq⟩
  rw [← hr, ← hq, BitVec.and_assoc, BitVec.and_assoc, BitVec.and_comm r.mask] at h
  exact h rfl

/-- Settles O4: any two rows differ in a bit which both masks keep. -/
theorem opcodeRowsArePairwiseDisjoint : Obligations.OpcodeRowsArePairwiseDisjoint := by
  have hdiffer : opcodeRows.Pairwise fun r q => r.value &&& q.mask ≠ q.value &&& r.mask := by decide
  exact ⟨rfl, hdiffer.imp OpcodeRow.disjoint_of_common_bits⟩

/-- Every mask keeps the family nibble `op` (30_encoding.md R54). -/
theorem OpcodeRow.mask_keeps_op : ∀ r ∈ opcodeRows, r.mask.extractLsb' 12 4 = BitVec.allOnes 4 := by decide

/-! ### Words that select no row -/

theorem isIgnoredWord_iff : isIgnoredWord w = true ↔ ∀ r ∈ opcodeRows, w &&& r.mask ≠ r.value := by
  simp [isIgnoredWord, OpcodeRow.selects]

/-- A word that selects a row agrees with it in every field that the mask keeps whole. -/
theorem OpcodeRow.extractLsb'_eq_of_selects {start len : Nat} (h : w &&& r.mask = r.value)
    (hmask : r.mask.extractLsb' start len = BitVec.allOnes len) :
    w.extractLsb' start len = r.value.extractLsb' start len := by
  rw [← h, BitVec.extractLsb'_and, hmask, BitVec.and_allOnes]

/-- In a family whose rows keep the low field whole, a word with none of the rows' low fields is ignored. -/
theorem isIgnoredWord_of_low_not_mem {op : BitVec 4} {len : Nat} {lows : List (BitVec len)} (hop : fieldOp w = op)
    (hrows : ∀ r ∈ opcodeRows, fieldOp r.value = op →
      r.mask.extractLsb' 0 len = BitVec.allOnes len ∧ r.value.extractLsb' 0 len ∈ lows)
    (hlow : w.extractLsb' 0 len ∉ lows) : isIgnoredWord w = true := by
  refine isIgnoredWord_iff.mpr fun r hr hsel => hlow ?_
  have hfamily : fieldOp r.value = op := (OpcodeRow.extractLsb'_eq_of_selects hsel (OpcodeRow.mask_keeps_op r hr)).symm.trans hop
  obtain ⟨hmask, hmem⟩ := hrows r hr hfamily
  rwa [OpcodeRow.extractLsb'_eq_of_selects hsel hmask]

end Sys2Proof
end

section
/-! PROOFS. The decoder and the encoder undo each other (30_encoding.md R52, R55, R56, R66), and the two levels of the dispatch
(40_step_and_dispatch.md R63) ignore the words that the opcode map ignores. -/

namespace Sys2Proof
open Sys2Proof.Laws

variable {w : Word} {i : Instr}

/-! ### What a word decodes to: a well-formed instruction whose word it is -/

theorem div_of_fieldOp {op : BitVec 4} (h : fieldOp w = op) : w.toNat / 0x1000 = op.toNat := by
  rw [← h, fieldOp_toNat]

theorem decodeFamily0_spec (hop : fieldOp w = 0x0#4) : (decodeFamily0 w).wf = true ∧ encode (decodeFamily0 w) = w := by
  unfold decodeFamily0
  split
  case h_3 =>
    refine ⟨isIgnoredWord_of_low_not_mem (lows := [0xE0#8, 0xEE#8]) hop (by decide) ?_, rfl⟩
    simp only [List.mem_cons, List.not_mem_nil]; tauto
  all_goals exact ⟨rfl, wordXKK_fields (div_of_fieldOp hop) ‹_›⟩

theorem decodeFamily8_spec (hop : fieldOp w = 0x8#4) : (decodeFamily8 w).wf = true ∧ encode (decodeFamily8 w) = w := by
  unfold decodeFamily8
  split
  case h_10 =>
    refine ⟨isIgnoredWord_of_low_not_mem (lows := [0x0#4, 0x1#4, 0x2#4, 0x3#4, 0x4#4, 0x5#4, 0x6#4, 0x7#4, 0xE#4]) hop
      (by decide) ?_, rfl⟩
    simp only [List.mem_cons, List.not_mem_nil]; tauto
  all_goals exact ⟨rfl, wordXYN_fields (div_of_fieldOp hop) (congrArg BitVec.toFin ‹w.extractLsb' 0 4 = _›)⟩

theorem decodeFamilyE_spec (hop : fieldOp w = 0xE#4) : (decodeFamilyE w).wf = true ∧ encode (decodeFamilyE w) = w := by
  unfold decodeFamilyE
  split
  case h_3 =>
    refine ⟨isIgnoredWord_of_low_not_mem (lows := [0x9E#8, 0xA1#8]) hop (by decide) ?_, rfl⟩
    simp only [List.mem_cons, List.not_mem_nil]; tauto
  all_goals exact ⟨rfl, wordXKK_fields (div_of_fieldOp hop) ‹_›⟩

theorem decodeFamilyF_spec (hop : fieldOp w = 0xF#4) : (decodeFamilyF w).wf = true ∧ encode (decodeFamilyF w) = w := by
  unfold decodeFamilyF
  split
  case h_10 =>
    refine ⟨isIgnoredWord_of_low_not_mem
      (lows := [0x07#8, 0x0A#8, 0x15#8, 0x18#8, 0x1E#8, 0x29#8, 0x33#8, 0x55#8, 0x65#8]) hop (by decide) ?_, rfl⟩
    simp only [List.mem_cons, List.not_mem_nil]; tauto
  all_goals exact ⟨rfl, wordXKK_fields (div_of_fieldOp hop) ‹_›⟩

/-- The family nibble selects one arm; the sixteen values of a nibble leave 0xF for the last. -/
theorem decodeWord_spec (w : Word) : (decodeWord w).wf = true ∧ encode (decodeWord w) = w := by
  unfold decodeWord
  split
  case h_1 hop => exact decodeFamily0_spec hop
  case h_9 hop => exact decodeFamily8_spec hop
  case h_15 hop => exact decodeFamilyE_spec hop
  case h_16 =>
    refine decodeFamilyF_spec ?_
    generalize fieldOp w = op at *
    decide +revert
  case h_2 hop | h_3 hop | h_11 hop | h_12 hop => exact ⟨rfl, wordNNN_fields (div_of_fieldOp hop)⟩
  case h_6 hop | h_10 hop | h_14 hop => exact ⟨rfl, wordXYN_fields (div_of_fieldOp hop) rfl⟩
  all_goals exact ⟨rfl, wordXKK_fields (div_of_fieldOp ‹_›) rfl⟩

theorem wf_decodeWord (w : Word) : (decodeWord w).wf = true := (decodeWord_spec w).1

theorem encode_decodeWord (w : Word) : encode (decodeWord w) = w := (decodeWord_spec w).2

/-! ### What the word of an instruction decodes to -/

/-- The laws of Laws/PerInstr, for every instruction. -/
theorem row_statement : ∀ i, Row.Statement i
  | .cls x => Row.cls x
  | .ret x => Row.ret x
  | .jp nnn => Row.jp nnn
  | .call nnn => Row.call nnn
  | .seByte x kk => Row.seByte x kk
  | .sneByte x kk => Row.sneByte x kk
  | .seReg x y n => Row.seReg x y n
  | .ldByte x kk => Row.ldByte x kk
  | .addByte x kk => Row.addByte x kk
  | .ldReg x y => Row.ldReg x y
  | .orReg x y => Row.orReg x y
  | .andReg x y => Row.andReg x y
  | .xorReg x y => Row.xorReg x y
  | .addReg x y => Row.addReg x y
  | .subReg x y => Row.subReg x y
  | .shr x y => Row.shr x y
  | .subnReg x y => Row.subnReg x y
  | .shl x y => Row.shl x y
  | .sneReg x y n => Row.sneReg x y n
  | .ldI nnn => Row.ldI nnn
  | .jpV0 nnn => Row.jpV0 nnn
  | .rnd x kk => Row.rnd x kk
  | .drw x y n => Row.drw x y n
  | .skp x => Row.skp x
  | .sknp x => Row.sknp x
  | .ldVxDt x => Row.ldVxDt x
  | .ldVxK x => Row.ldVxK x
  | .ldDtVx x => Row.ldDtVx x
  | .ldStVx x => Row.ldStVx x
  | .addI x => Row.addI x
  | .ldF x => Row.ldF x
  | .ldB x => Row.ldB x
  | .storeRegs x => Row.storeRegs x
  | .loadRegs x => Row.loadRegs x
  | .ignored w => Row.ignored w

/-- Only an ignored instruction has no row. -/
theorem eq_ignored_of_rowOf_eq_none (h : Row.rowOf i = none) : i = .ignored (encode i) := by
  cases i with
  | ignored u => rfl
  | _ => cases h

/-- Had the decoded instruction a row, its word, which is `w`, would select that row. -/
theorem decodeWord_of_isIgnoredWord (h : isIgnoredWord w = true) : decodeWord w = .ignored w := by
  have hrow := row_statement (decodeWord w) (wf_decodeWord w)
  rw [encode_decodeWord] at hrow
  split at hrow
  case h_1 r _ =>
    obtain ⟨hmem, hsel⟩ := hrow
    exact absurd (beq_iff_eq.mp hsel) (isIgnoredWord_iff.mp h r hmem)
  case h_2 hnone => simpa only [encode_decodeWord] using eq_ignored_of_rowOf_eq_none hnone

/-- Settles O3: an ignored instruction is well formed and its word is the one decoded. -/
theorem ignoredWordsMatchNoRow : Obligations.IgnoredWordsMatchNoRow := by
  refine fun w => Iff.trans ⟨fun ⟨u, hu⟩ => ?_, fun h => ⟨w, decodeWord_of_isIgnoredWord h⟩⟩ isIgnoredWord_iff
  have hwf := wf_decodeWord w
  have hword := encode_decodeWord w
  rw [hu] at hwf hword
  exact hword ▸ hwf

/-- The fields of an instruction's word are the instruction's own, so both levels of the dispatch select it. -/
theorem decodeWord_encode (h : i.wf = true) : decodeWord (encode i) = i := by
  cases i with
  | ignored u => exact decodeWord_of_isIgnoredWord h
  | _ =>
    simp [encode, decodeWord, decodeFamily0, decodeFamily8, decodeFamilyE, decodeFamilyF, fieldOp_wordNNN, fieldNNN_wordNNN,
      fieldOp_wordXKK, fieldX_wordXKK, fieldKK_wordXKK, fieldOp_wordXYN, fieldX_wordXYN, fieldY_wordXYN, fieldN_wordXYN,
      lowNibble_wordXYN]

theorem decodeBytes_encodeBytes (i : Instr) : decodeBytes (encodeBytes i) = .ok (decodeWord (encode i), []) := by
  rw [encodeBytes, decodeBytes, Machine.joinBytes_high_low]

/-- Settles O1: as a word, and as the word's two bytes. -/
theorem decodeOfEncodeIsIdentity : Obligations.DecodeOfEncodeIsIdentity := fun i h =>
  ⟨decodeWord_encode h, by rw [decodeBytes_encodeBytes, decodeWord_encode h]⟩

/-- Settles O5: the decoder run on the nine words. -/
theorem wordsOfTheSpecDecode : Obligations.WordsOfTheSpecDecode := by
  unfold Obligations.WordsOfTheSpecDecode
  decide

end Sys2Proof
end

section
/-! PROOFS. Decoding is total (40_step_and_dispatch.md R66), and a word of the opcode table is read as the decoder reads it. -/

namespace Sys2Proof

/-- Settles O2: the family nibble selects one arm, and the arm keeps every field of the word. -/
theorem everyWordIsExactlyOneInstruction : Obligations.EveryWordIsExactlyOneInstruction := decodeWord_spec

theorem decodeTableWord_eq (nbits w : Nat) :
    decodeTableWord nbits w = some (decodeWord (BitVec.ofNat 16 (w % 2 ^ nbits))) := by
  rw [decodeTableWord, decodeBytes, Machine.joinBytes_high_low]

end Sys2Proof
end

section
/-! PROOFS. The core's step (40_step_and_dispatch.md R61): fetch, advance, execute, count; on an ignored word (R64), beyond the end
of memory (R62), and on a word placed by `withFetchWord` (log 10). -/

namespace Sys2Proof.Machine

variable {s : State}

/-! ### The step as the fetched instruction's (R61) -/

/-- An instruction that stops makes the core's step stop with the same fault, not counted. -/
theorem step_eq_fault {i : Instr} {f : Fault} (h : s.nextEvent = .coreStep) (hrun : s.running = true)
    (hdecode : decodeWord (s.memRead16 s.pc) = i) (hexec : exec i s.advance.fetched = .fault f) : step s = .fault f := by
  rw [step_of_running h hrun, hdecode, hexec]
  rfl

/-- Settles O40: the state that the instruction runs on is the fetched one with the event off the schedule. -/
theorem stepRunsTheFetchedInstruction : Obligations.StepRunsTheFetchedInstruction := by
  intro s hevent hpaused hstopped
  have hrun := State.running_of hpaused hstopped
  exact ⟨fun _ hexec => step_eq_next hevent hrun rfl hexec, fun _ hexec => step_eq_fault hevent hrun rfl hexec⟩

/-! ### Ignored words (R62, R64) -/

theorem onlyChanges_advance : OnlyChanges [.schedule] s s.advance := by
  simp [OnlyChanges, Part.forall_iff, Part.same, State.advance]

theorem onlyChanges_fetched : OnlyChanges [.pc, .mar] s s.fetched := by
  simp [OnlyChanges, Part.forall_iff, Part.same]

theorem onlyChanges_counted : OnlyChanges [.cycle] s s.counted := by
  simp [OnlyChanges, Part.forall_iff, Part.same]

/-- What a step does around its instruction: the event off the schedule, the fetch and the count. -/
theorem onlyChanges_advance_fetched_counted :
    OnlyChanges [.pc, .mar, .cycle, .schedule] s s.advance.fetched.counted :=
  ((onlyChanges_advance.mono (by simp)).trans (onlyChanges_fetched.mono (by simp))).trans (onlyChanges_counted.mono (by simp))

theorem step_of_decode_ignored {w : Word} (h : s.nextEvent = .coreStep) (hrun : s.running = true)
    (hdecode : decodeWord (s.memRead16 s.pc) = .ignored w) : step s = .next s.advance.fetched.counted :=
  step_eq_next h hrun hdecode rfl

/-- Settles O39: the step is the fetch and the count, with nothing executed between them. -/
theorem ignoredWordsChangeNothing : Obligations.IgnoredWordsChangeNothing := by
  refine ⟨fun w s => ⟨s, rfl, .refl _ s⟩, fun w s hevent hpaused hstopped hdecode => ?_⟩
  have hstep := step_of_decode_ignored hevent (State.running_of hpaused hstopped) hdecode
  exact ⟨_, hstep, rfl, rfl, rfl, rfl, onlyChanges_advance_fetched_counted⟩

/-- Settles O43: the sentinel 0xFFFF matches no row of the opcode map, so the step runs an ignored word. -/
theorem fetchBeyondMemoryIsIgnored : Obligations.FetchBeyondMemoryIsIgnored := by
  intro s hevent hpaused hstopped hbeyond
  have hword : s.memRead16 s.pc = 0xFFFF := State.memRead16_of_ge hbeyond
  have hignored : decodeWord (s.memRead16 s.pc) = .ignored 0xFFFF := by
    rw [hword]
    exact decodeWord_of_isIgnoredWord (by decide)
  have hstep := step_of_decode_ignored hevent (State.running_of hpaused hstopped) hignored
  exact ⟨hword, _, hstep, BitVec.toNat_add .., rfl, rfl, onlyChanges_advance_fetched_counted⟩

/-! ### A word placed at PC (log 10) -/

theorem State.wf_withFetchWord (hs : s.wf) (nbits w : Nat) : (s.withFetchWord nbits w).wf :=
  State.wf_memWrite16 hs s.pc (BitVec.ofNat 16 (w % 2 ^ nbits))

/-- The fetch reads the placed word back. -/
theorem State.memRead16_withFetchWord (hs : s.wf) (h : s.pc.toNat + 1 < s.cfg.memSize) (nbits w : Nat) :
    (s.withFetchWord nbits w).memRead16 s.pc = BitVec.ofNat 16 (w % 2 ^ nbits) :=
  State.memRead16_memWrite16 hs h _

/-- The placing makes the core run and its step the next event. -/
theorem step_withFetchWord (hs : s.wf) (h : s.pc.toNat + 1 < s.cfg.memSize) (nbits w : Nat) :
    step (s.withFetchWord nbits w) =
      countStep (exec (decodeWord (BitVec.ofNat 16 (w % 2 ^ nbits))) (s.withFetchWord nbits w).advance.fetched) := by
  have hpc : (s.withFetchWord nbits w).pc = s.pc := rfl
  rw [step_of_running rfl rfl, hpc, State.memRead16_withFetchWord hs h]

/-- Settles O41: the table's reading of the word and the step's are one decoding of the word read back. -/
theorem withFetchWordRunsThatWord : Obligations.WithFetchWordRunsThatWord := fun _ w hs _ hin =>
  ⟨_, decodeTableWord_eq 16 w, State.wf_withFetchWord hs 16 w, step_withFetchWord hs hin 16 w, rfl⟩

end Sys2Proof.Machine
end

section
/-! PROOFS. The words that select a row of the opcode map (30_encoding.md R55) decode to the row's instruction, with the fields of
the word: the word is that instruction's own, and decoding undoes encoding. -/

namespace Sys2Proof.Machine

variable {mask value : Word} {op : Nat}

theorem decodesRow_of_encode {i : Word → Instr} (hwf : ∀ w, (i w).wf = true)
    (hword : ∀ w, w &&& mask = value → encode (i w) = w) : DecodesRow mask value i := fun w hw => by
  have hdecode := decodeWord_encode (hwf w)
  rwa [hword w hw] at hdecode

/-- A row that fixes the family nibble alone, with fields `x` and `kk`. -/
theorem decodesRow_xkk {i : Reg → Byte → Instr} (hvalue : value.toNat = op * 0x1000) (hwf : ∀ x kk, (i x kk).wf = true)
    (hword : ∀ x kk, encode (i x kk) = wordXKK op x kk) :
    DecodesRow 0xF000#16 value (fun w => i (fieldX w) (fieldKK w)) :=
  decodesRow_of_encode (fun _ => hwf _ _) fun w hw => by
    have hbits := toNat_of_mask_F000 hw
    rw [hword]
    exact wordXKK_fields (by omega) rfl

/-- A row that fixes the family nibble and the low nibble `n`, with fields `x` and `y`. -/
theorem decodesRow_xy {n : Nibble} {i : Reg → Reg → Instr} (hvalue : value.toNat = op * 0x1000 + n.val)
    (hwf : ∀ x y, (i x y).wf = true) (hword : ∀ x y, encode (i x y) = wordXYN op x y n) :
    DecodesRow 0xF00F#16 value (fun w => i (fieldX w) (fieldY w)) :=
  decodesRow_of_encode (fun _ => hwf _ _) fun w hw => by
    have hbits := toNat_of_mask_F00F hw
    have hlow : fieldN w = n := Fin.ext (by rw [fieldN_val]; omega)
    rw [hword]
    exact wordXYN_fields (by omega) hlow

end Sys2Proof.Machine
end

section
/-! PROOFS. Register arithmetic and logic (41_arithmetic.md R69 to R80): the three ways in which these instructions write the
registers (a destination alone; a result and then the flag, D8; the flag and then a shift, D9), and their results as numbers. -/

namespace Sys2Proof.Machine

variable {s : State} {i : Instr} {x : Reg}

/-! ### A destination alone -/

theorem State.getV_setV_same (s : State) (r : Reg) (b : Byte) : (s.setV r b).getV r = b := by
  rw [State.getV_setV, if_pos rfl]

/-- Settles O6: the one write is that of the destination. -/
theorem ldByteLoadsTheImmediate : Obligations.LdByteLoadsTheImmediate :=
  ⟨decodesRow_xkk (op := 0x6) rfl (fun _ _ => rfl) (fun _ _ => rfl), fun x kk s =>
    ⟨_, rfl, s.getV_setV_same x kk, fun _ hr => State.getV_setV_of_ne hr _, onlyChanges_setV⟩⟩

/-- Settles O8: the one write is that of the destination. -/
theorem ldRegCopiesTheRegister : Obligations.LdRegCopiesTheRegister :=
  ⟨decodesRow_xy (op := 0x8) (n := 0x0) rfl (fun _ _ => rfl) (fun _ _ => rfl), fun x y s =>
    ⟨_, rfl, s.getV_setV_same x (s.getV y), fun _ hr => State.getV_setV_of_ne hr _, onlyChanges_setV⟩⟩

/-- The rule of an instruction that writes Vx alone, for a result that is described bit by bit. -/
theorem exists_next_of_setV_bits {result : Byte} {bit : Nat → Bool} (h : exec i s = .next (s.setV x result))
    (hbits : ∀ b, result.getLsbD b = bit b) :
    ∃ t, exec i s = .next t ∧ (∀ b, (t.getV x).getLsbD b = bit b) ∧ (∀ r, r ≠ x → t.getV r = s.getV r) ∧
      OnlyChanges [.v] s t :=
  ⟨_, h, fun b => by rw [State.getV_setV_same, hbits], fun _ hr => State.getV_setV_of_ne hr _, onlyChanges_setV⟩

/-- Settles O9: the three meanings write Vx alone, and differ in its bits. -/
theorem logicIsBitwiseAndKeepsVf : Obligations.LogicIsBitwiseAndKeepsVf :=
  ⟨decodesRow_xy (op := 0x8) (n := 0x1) rfl (fun _ _ => rfl) (fun _ _ => rfl),
    decodesRow_xy (op := 0x8) (n := 0x2) rfl (fun _ _ => rfl) (fun _ _ => rfl),
    decodesRow_xy (op := 0x8) (n := 0x3) rfl (fun _ _ => rfl) (fun _ _ => rfl), fun _ _ _ =>
    ⟨exists_next_of_setV_bits rfl fun _ => BitVec.getLsbD_or, exists_next_of_setV_bits rfl fun _ => BitVec.getLsbD_and,
      exists_next_of_setV_bits rfl fun _ => BitVec.getLsbD_xor⟩⟩

/-- Settles O15: the count of draws goes up, and then Vx is written; 0x00 and 0xFF are the two extreme masks. -/
theorem rndMasksAFreshDraw : Obligations.RndMasksAFreshDraw := by
  refine ⟨decodesRow_xkk (op := 0xC) rfl (fun _ _ => rfl) (fun _ _ => rfl), fun x kk s => ?_⟩
  have hdest : (s.nextDraw.setV x (Config.randomByte s.draws &&& kk)).getV x = Config.randomByte s.draws &&& kk :=
    State.getV_setV_same ..
  refine ⟨_, rfl, hdest, rfl, ?_, ?_, fun _ hr => State.getV_setV_of_ne hr _, exec_onlyChanges (i := .rnd x kk) rfl⟩
  · rintro rfl
    exact hdest.trans BitVec.and_zero
  · rintro rfl
    exact hdest.trans BitVec.and_allOnes

/-! ### A result and then the flag (D8) -/

/-- The rule of an instruction that writes its result to Vx and then to VF whether `c` holds; when x = F the flag stays. -/
theorem exists_next_of_setResultFlag {result : Byte} {n : Nat} {c : Prop} [Decidable c]
    (h : exec i s = .next (s.setResultFlag x result (decide c))) (hresult : result.toNat = n) :
    ∃ t, exec i s = .next t ∧ (x ≠ .vf → (t.getV x).toNat = n) ∧ t.getV .vf = (if c then 0x01 else 0x00) ∧
      (∀ r, r ≠ x → r ≠ .vf → t.getV r = s.getV r) ∧ OnlyChanges [.v] s t := by
  refine ⟨_, h, fun hx => ?_, ?_, fun r hr hvf => ?_, onlyChanges_setResultFlag⟩
  · rw [State.getV_setResultFlag, if_neg hx, if_pos rfl, hresult]
  · simp only [State.getV_setResultFlag, flagByte, decide_eq_true_eq, if_true]
  · rw [State.getV_setResultFlag, if_neg hvf, if_neg hr]

/-- Subtraction mod 256, with the modulus added first so that the difference is exact. -/
theorem byte_sub_toNat (a b : Byte) : (a - b).toNat = (a.toNat + 256 - b.toNat) % 256 := by
  have hb := b.isLt
  rw [BitVec.toNat_sub]
  omega

/-- Settles O7: the result is the sum mod 256, the flag the exact sum above 255. -/
theorem addByteWrapsAndWritesCarry : Obligations.AddByteWrapsAndWritesCarry :=
  ⟨decodesRow_xkk (op := 0x7) rfl (fun _ _ => rfl) (fun _ _ => rfl), fun _ _ _ =>
    exists_next_of_setResultFlag rfl (BitVec.toNat_add ..)⟩

/-- Settles O10: the result is the sum mod 256, the flag the exact sum above 255. -/
theorem addRegWrapsAndWritesCarry : Obligations.AddRegWrapsAndWritesCarry :=
  ⟨decodesRow_xy (op := 0x8) (n := 0x4) rfl (fun _ _ => rfl) (fun _ _ => rfl), fun _ _ _ =>
    exists_next_of_setResultFlag rfl (BitVec.toNat_add ..)⟩

/-- Settles O11: the result is the difference mod 256, the flag the strict comparison. -/
theorem subRegSetsVfOnStrictlyGreater : Obligations.SubRegSetsVfOnStrictlyGreater :=
  ⟨decodesRow_xy (op := 0x8) (n := 0x5) rfl (fun _ _ => rfl) (fun _ _ => rfl), fun _ _ _ =>
    exists_next_of_setResultFlag rfl (byte_sub_toNat ..)⟩

/-- Settles O12: the difference and the comparison take Vy as the minuend. -/
theorem subnRegSetsVfOnStrictlyGreater : Obligations.SubnRegSetsVfOnStrictlyGreater :=
  ⟨decodesRow_xy (op := 0x8) (n := 0x7) rfl (fun _ _ => rfl) (fun _ _ => rfl), fun _ _ _ =>
    exists_next_of_setResultFlag rfl (byte_sub_toNat ..)⟩

/-! ### The flag and then a shift (D9) -/

/-- The rule of an instruction that writes a bit to VF and then shifts Vx as it is read after that; when x = F it shifts the
bit. -/
theorem exists_next_of_flag_then_shift {bit : Byte} {shift : Byte → Byte}
    (h : exec i s = .next ((s.setV .vf bit).setV x (shift ((s.setV .vf bit).getV x)))) :
    ∃ t, exec i s = .next t ∧ (x ≠ .vf → t.getV x = shift (s.getV x) ∧ t.getV .vf = bit) ∧
      (x = .vf → t.getV .vf = shift bit) ∧ (∀ r, r ≠ x → r ≠ .vf → t.getV r = s.getV r) ∧ OnlyChanges [.v] s t := by
  refine ⟨_, h, fun hx => ⟨?_, ?_⟩, ?_, fun r hr hvf => ?_, onlyChanges_setV.trans onlyChanges_setV⟩
  · rw [State.getV_setV_same, State.getV_setV_of_ne hx]
  · rw [State.getV_setV_of_ne (Ne.symm hx), State.getV_setV_same]
  · rintro rfl
    rw [State.getV_setV_same, State.getV_setV_same]
  · rw [State.getV_setV_of_ne hr, State.getV_setV_of_ne hvf]

theorem byte_shiftRight_one_toNat (b : Byte) : (b >>> 1).toNat = b.toNat / 2 := by
  rw [BitVec.toNat_ushiftRight, Nat.shiftRight_eq_div_pow, Nat.pow_one]

theorem byte_shiftLeft_one_toNat (b : Byte) : (b <<< 1).toNat = b.toNat * 2 % 256 := by
  rw [BitVec.toNat_shiftLeft, Nat.shiftLeft_eq, Nat.pow_one]

theorem shrBit_toNat (b : Byte) : (shrBit b).toNat = b.toNat % 2 := by
  rw [shrBit, BitVec.toNat_and]
  exact Nat.and_one_is_mod _

theorem shlBit_toNat (b : Byte) : (shlBit b).toNat = b.toNat / 128 := by
  have hb := b.isLt
  have hbit : (shlBit b).toNat = b.toNat / 2 ^ 7 % 2 := by
    rw [shlBit, BitVec.toNat_and, BitVec.toNat_ushiftRight, Nat.shiftRight_eq_div_pow]
    exact Nat.and_one_is_mod _
  omega

/-- A lost bit shifted right is lost in turn. -/
theorem shrBit_shiftRight_one (b : Byte) : shrBit b >>> 1 = 0x00 := by
  apply BitVec.eq_of_toNat_eq
  rw [byte_shiftRight_one_toNat, shrBit_toNat]
  exact Nat.div_eq_of_lt (Nat.mod_lt _ (by decide))

/-- A lost bit shifted left is bit 1. -/
theorem shlBit_shiftLeft_one (b : Byte) : shlBit b <<< 1 = if 128 ≤ b.toNat then 0x02 else 0x00 := by
  have hb := b.isLt
  apply BitVec.eq_of_toNat_eq
  rw [byte_shiftLeft_one_toNat, shlBit_toNat]
  split
  · show b.toNat / 128 * 2 % 256 = 2
    omega
  · show b.toNat / 128 * 2 % 256 = 0
    omega

/-- Settles O13: bit 0 goes to VF, and the shift halves what Vx then holds. -/
theorem shrShiftsVxAndWritesTheLostBit : Obligations.ShrShiftsVxAndWritesTheLostBit := by
  refine ⟨decodesRow_xy (op := 0x8) (n := 0x6) rfl (fun _ _ => rfl) (fun _ _ => rfl), fun x y s => ?_⟩
  obtain ⟨t, hexec, hother, hself, hframe⟩ :=
    exists_next_of_flag_then_shift (i := .shr x y) (shift := (· >>> 1)) (s := s) rfl
  refine ⟨t, hexec, fun hx => ?_, fun hx => (hself hx).trans (shrBit_shiftRight_one _), hframe⟩
  obtain ⟨hdest, hflag⟩ := hother hx
  rw [hdest, hflag]
  exact ⟨byte_shiftRight_one_toNat _, shrBit_toNat _⟩

/-- Settles O14: bit 7 goes to VF, and the shift doubles what Vx then holds. -/
theorem shlShiftsVxAndWritesTheLostBit : Obligations.ShlShiftsVxAndWritesTheLostBit := by
  refine ⟨decodesRow_xy (op := 0x8) (n := 0xE) rfl (fun _ _ => rfl) (fun _ _ => rfl), fun x y s => ?_⟩
  obtain ⟨t, hexec, hother, hself, hframe⟩ :=
    exists_next_of_flag_then_shift (i := .shl x y) (shift := (· <<< 1)) (s := s) rfl
  refine ⟨t, hexec, fun hx => ?_, ?_, hframe⟩
  · obtain ⟨hdest, hflag⟩ := hother hx
    rw [hdest, hflag]
    exact ⟨byte_shiftLeft_one_toNat _, shlBit_toNat _⟩
  · rintro rfl
    exact (hself rfl).trans (shlBit_shiftLeft_one _)

end Sys2Proof.Machine
end

section
/-! PROOFS. Control flow (42_control_flow.md R82 to R90): jumps, calls and returns, and skips. -/

namespace Sys2Proof.Machine

variable {value : Word} {op : Nat}

/-! ### The rows of the opcode map (30_encoding.md R55) -/

/-- A row that fixes the family nibble alone, with field `nnn`. -/
theorem decodesRow_nnn {i : Addr12 → Instr} (hvalue : value.toNat = op * 0x1000) (hwf : ∀ nnn, (i nnn).wf = true)
    (hword : ∀ nnn, encode (i nnn) = wordNNN op nnn) : DecodesRow 0xF000#16 value (fun w => i (fieldNNN w)) :=
  decodesRow_of_encode (fun _ => hwf _) fun w hw => by
    have hbits := toNat_of_mask_F000 hw
    rw [hword]
    exact wordNNN_fields (by omega)

/-- A row that fixes the family nibble alone, with fields `x`, `y` and `n`. -/
theorem decodesRow_xyn {i : Reg → Reg → Nibble → Instr} (hvalue : value.toNat = op * 0x1000)
    (hwf : ∀ x y n, (i x y n).wf = true) (hword : ∀ x y n, encode (i x y n) = wordXYN op x y n) :
    DecodesRow 0xF000#16 value (fun w => i (fieldX w) (fieldY w) (fieldN w)) :=
  decodesRow_of_encode (fun _ => hwf _ _ _) fun w hw => by
    have hbits := toNat_of_mask_F000 hw
    rw [hword]
    exact wordXYN_fields (by omega) rfl

/-- A row that fixes the family nibble and the low byte `kk`, with field `x`. -/
theorem decodesRow_x {kk : Byte} {i : Reg → Instr} (hvalue : value.toNat = op * 0x1000 + kk.toNat)
    (hwf : ∀ x, (i x).wf = true) (hword : ∀ x, encode (i x) = wordXKK op x kk) :
    DecodesRow 0xF0FF#16 value (fun w => i (fieldX w)) :=
  decodesRow_of_encode (fun _ => hwf _) fun w hw => by
    have hbits := toNat_of_mask_F0FF hw
    have hlow : fieldKK w = kk := BitVec.eq_of_toNat_eq (by rw [fieldKK_toNat]; omega)
    rw [hword]
    exact wordXKK_fields (by omega) hlow

variable {s : State} {i : Instr}

/-! ### Jumps (R83, R84) -/

/-- Settles O16: the one write is that of PC. -/
theorem jpJumpsAnywhere : Obligations.JpJumpsAnywhere :=
  ⟨decodesRow_nnn (op := 0x1) rfl (fun _ => rfl) (fun _ => rfl), fun nnn _ =>
    ⟨_, rfl, addr16_toNat nnn, onlyChanges_setPc⟩⟩

/-- Settles O17: the one write is that of PC, and the sum does not wrap. -/
theorem jpV0AddsV0 : Obligations.JpV0AddsV0 :=
  ⟨decodesRow_nnn (op := 0xB) rfl (fun _ => rfl) (fun _ => rfl), fun nnn s =>
    ⟨_, rfl, jpV0_target_toNat nnn (s.getV 0), onlyChanges_setPc⟩⟩

/-! ### Calls and returns (R85, R86) -/

theorem exec_call_of_lt {nnn : Addr12} (h : nnn.toNat < 0x200) : exec (.call nnn) s = .next s := by
  simp only [exec, execCall, addr16_toNat, if_pos h]

theorem exec_call_of_ge {nnn : Addr12} (h : 0x200 ≤ nnn.toNat) :
    exec (.call nnn) s = .next ((s.push s.mar).setPc (addr16 nnn)) := by
  simp only [exec, execCall, addr16_toNat, if_neg (Nat.not_lt.mpr h)]

/-- A return completes under both resume points (D23), at an address that the resume point makes of the popped word. -/
theorem exec_ret_eq_next (x : Nibble) (s : State) :
    ∃ a, exec (.ret x) s = .next (s.pop.setPc a) ∧ (s.cfg.retResume = .callSite → a = s.popValue) ∧
      (s.cfg.retResume = .afterCall → a = s.popValue + 2) := by
  cases h : s.cfg.retResume with
  | callSite => exact ⟨s.popValue, by simp only [exec, execRet, h], fun _ => rfl, nofun⟩
  | afterCall => exact ⟨s.popValue + 2, by simp only [exec, execRet, h], nofun, fun _ => rfl⟩

/-- Settles O18: below 0x200 nothing happens; from there on the stack is what the push leaves. -/
theorem callPushesMarAndJumps : Obligations.CallPushesMarAndJumps := by
  refine ⟨decodesRow_nnn (op := 0x2) rfl (fun _ => rfl) (fun _ => rfl), fun nnn s hs => ?_⟩
  obtain hlow | hhigh := Nat.lt_or_ge nnn.toNat 0x200
  · exact ⟨s, exec_call_of_lt hlow, fun _ => .refl _ s, fun h => absurd h (Nat.not_le.mpr hlow), .refl _ s⟩
  · obtain ⟨hfree, hfull, -⟩ := pushAndPop s s.mar hs
    have hexec := exec_call_of_ge (s := s) hhigh
    refine ⟨_, hexec, fun h => absurd h (Nat.not_lt.mpr hhigh), fun _ => ⟨addr16_toNat nnn, hfree, fun h => ?_⟩,
      exec_onlyChanges hexec⟩
    rw [hfull h]
    exact ⟨rfl, rfl⟩

/-- Settles O19: the popped word is slot SP - 1, or 0x00FF when the stack is empty. -/
theorem retPopsIntoPc : Obligations.RetPopsIntoPc := by
  refine ⟨decodesRow_x (op := 0x0) (kk := 0xEE) rfl (fun _ => rfl) (fun _ => rfl), fun x s hs => ?_⟩
  obtain ⟨a, hexec, hcallSite, hafterCall⟩ := exec_ret_eq_next x s
  obtain ⟨-, -, hpos, hempty, -⟩ := pushAndPop s 0 hs
  refine ⟨_, s.popValue, hexec, fun h => ?_, fun h => ?_, hcallSite, hafterCall, rfl, exec_onlyChanges hexec⟩
  · obtain ⟨hslot, hsp, -⟩ := hpos h
    exact ⟨hslot.symm, hsp⟩
  · obtain ⟨hvalue, hpop⟩ := hempty h
    exact ⟨hvalue, (congrArg State.sp hpop).trans h⟩

/-- Settles O22: the word that the return pops is the MAR that the call pushed. -/
theorem returnComesBackToTheCall : Obligations.ReturnComesBackToTheCall := by
  intro nnn x s hs hhigh hfree
  obtain ⟨hvalue, hsp⟩ := State.pop_push hs s.mar hfree
  obtain ⟨a, hexec, hcallSite, hafterCall⟩ := exec_ret_eq_next x ((s.push s.mar).setPc (addr16 nnn))
  have hpopped : ((s.push s.mar).setPc (addr16 nnn)).popValue = s.mar := hvalue
  rw [hpopped] at hcallSite hafterCall
  exact ⟨_, _, exec_call_of_ge hhigh, hexec, hsp, hcallSite, hafterCall⟩

/-! ### Skips (R82, R87 to R90) -/

/-- The rule of an instruction that skips when two bytes are equal. -/
theorem exists_next_of_skipIf_eq {a b : Byte} (h : exec i s = .next (s.skipIf (a == b))) :
    ∃ t, exec i s = .next t ∧ t.pc = (if a = b then s.pc + 2 else s.pc) ∧ OnlyChanges [.pc] s t :=
  ⟨_, h, by simp only [State.skipIf_pc, beq_iff_eq], onlyChanges_skipIf⟩

/-- The rule of an instruction that skips when two bytes differ. -/
theorem exists_next_of_skipIf_ne {a b : Byte} (h : exec i s = .next (s.skipIf (a != b))) :
    ∃ t, exec i s = .next t ∧ t.pc = (if a = b then s.pc else s.pc + 2) ∧ OnlyChanges [.pc] s t :=
  ⟨_, h, by simp only [State.skipIf_pc, bne_iff_ne, ne_eq, ite_not], onlyChanges_skipIf⟩

/-- Settles O20: the two skips compare Vx with the immediate. -/
theorem skipsOnByteComparison : Obligations.SkipsOnByteComparison :=
  ⟨decodesRow_xkk (op := 0x3) rfl (fun _ _ => rfl) (fun _ _ => rfl),
    decodesRow_xkk (op := 0x4) rfl (fun _ _ => rfl) (fun _ _ => rfl), fun _ _ _ =>
    ⟨exists_next_of_skipIf_eq rfl, exists_next_of_skipIf_ne rfl⟩⟩

/-- Settles O21: the two skips compare Vx with Vy, whatever the low nibble is. -/
theorem skipsOnRegisterComparison : Obligations.SkipsOnRegisterComparison :=
  ⟨decodesRow_xyn (op := 0x5) rfl (fun _ _ _ => rfl) (fun _ _ _ => rfl),
    decodesRow_xyn (op := 0x9) rfl (fun _ _ _ => rfl) (fun _ _ _ => rfl), fun _ _ _ _ =>
    ⟨exists_next_of_skipIf_eq rfl, exists_next_of_skipIf_ne rfl⟩⟩

end Sys2Proof.Machine
end

section
/-! PROOFS. The index register and memory transfers (43_index_and_memory.md R93 to R98). -/

namespace Sys2Proof.Machine

variable {s : State}

/-! ### The index register (R93 to R95) -/

/-- Settles O23: the one write is that of I. -/
theorem ldISetsTheIndex : Obligations.LdISetsTheIndex :=
  ⟨decodesRow_nnn (op := 0xA) rfl (fun _ => rfl) (fun _ => rfl), fun nnn _ =>
    ⟨_, rfl, addr16_toNat nnn, onlyChanges_setI⟩⟩

/-- Settles O24: the one write is that of I, and a sum of words is mod 2^16. -/
theorem addIWrapsAt16Bits : Obligations.AddIWrapsAt16Bits := by
  refine ⟨decodesRow_x (op := 0xF) (kk := 0x1E) rfl (fun _ => rfl) (fun _ => rfl), fun x s =>
    ⟨_, rfl, ?_, onlyChanges_setI⟩⟩
  rw [State.setI_i, BitVec.toNat_add, byte16_toNat]

theorem exec_ldF_of_lt {x : Reg} (h : (s.getV x).toNat < 16) :
    exec (.ldF x) s = .next (s.setI (BitVec.ofNat 16 (5 * (s.getV x).toNat))) := if_pos h

theorem exec_ldF_of_ge {x : Reg} (h : 16 ≤ (s.getV x).toNat) : exec (.ldF x) s = s.raise .fontDigitOutOfRange :=
  if_neg (Nat.not_lt.mpr h)

/-- Settles O25: the address of a glyph, below 80, is exact in 16 bits. -/
theorem ldFPointsAtTheGlyph : Obligations.LdFPointsAtTheGlyph := by
  refine ⟨decodesRow_x (op := 0xF) (kk := 0x29) rfl (fun _ => rfl) (fun _ => rfl), fun x s =>
    ⟨fun hdigit => ⟨_, exec_ldF_of_lt hdigit, ?_, onlyChanges_setI⟩, exec_ldF_of_ge⟩⟩
  exact Nat.mod_eq_of_lt (by omega)

/-! ### The decimal digits (R96) -/

/-- Settles O26: the three addresses differ, so that no digit is stored over another. -/
theorem ldBStoresTheDecimalDigits : Obligations.LdBStoresTheDecimalDigits := by
  refine ⟨decodesRow_x (op := 0xF) (kk := 0x33) rfl (fun _ => rfl) (fun _ => rfl), fun x s hs => ?_⟩
  have hhundreds : State.wf (s.memWrite8 (s.effAddr 0) (s.getV x / 100)) := State.wf_memWrite8 hs _ _
  have htens := State.wf_memWrite8 hhundreds (s.effAddr 1) (s.getV x / 10 % 10)
  have h01 : s.effAddr 0 ≠ s.effAddr 1 := s.effAddr_ne (by decide) (by decide) (by decide)
  have h02 : s.effAddr 0 ≠ s.effAddr 2 := s.effAddr_ne (by decide) (by decide) (by decide)
  have h12 : s.effAddr 1 ≠ s.effAddr 2 := s.effAddr_ne (by decide) (by decide) (by decide)
  refine ⟨_, rfl, fun k _ => s.effAddr_toNat k, fun hin => ?_, fun hin => ?_, fun hin => ?_, fun a ha => ?_,
    exec_onlyChanges (i := .ldB x) rfl⟩
  · rw [State.memRead8_memWrite8_of_ne htens h02, State.memRead8_memWrite8_of_ne hhundreds h01,
      State.memRead8_memWrite8_same hs hin]
    rfl
  · rw [State.memRead8_memWrite8_of_ne htens h12, State.memRead8_memWrite8_same hhundreds hin]
    rfl
  · rw [State.memRead8_memWrite8_same htens hin]
    rfl
  · rw [State.memRead8_memWrite8_of_ne htens (ha 2 (by decide)), State.memRead8_memWrite8_of_ne hhundreds (ha 1 (by decide)),
      State.memRead8_memWrite8_of_ne hs (ha 0 (by decide))]

/-! ### The block transfers (R97, R98) -/

/-- The store loop of `Fx55`, read at the address of a register that it stores. -/
theorem State.memRead8_storeRegs_reg (hs : s.wf) {x r : Reg} (hr : r ≤ x) (hin : (s.effAddr r.val).toNat < s.cfg.memSize) :
    (s.storeRegs (x.val + 1)).memRead8 (s.effAddr r.val) = s.getV r := by
  rw [State.memRead8_storeRegs hs x.isLt (Nat.lt_succ_of_le hr) hin, regOf_val]

/-- The load loop of `Fx65` fills the registers up to Vx. -/
theorem State.getV_loadRegs_of_le {x r : Reg} (hr : r ≤ x) :
    (s.loadRegs (x.val + 1)).getV r = s.memRead8 (s.effAddr r.val) := by
  obtain ⟨-, hread⟩ := s.loadRegs_spec (Nat.succ_le_of_lt x.isLt)
  rw [hread, if_pos (Nat.lt_succ_of_le hr)]

theorem State.getV_loadRegs_of_gt {x r : Reg} (hr : x < r) : (s.loadRegs (x.val + 1)).getV r = s.getV r := by
  obtain ⟨-, hread⟩ := s.loadRegs_spec (Nat.succ_le_of_lt x.isLt)
  rw [hread, if_neg (Nat.not_lt.mpr hr)]

/-- Settles O27: an address that the loop writes is that of a register up to Vx. -/
theorem storeRegsStoresV0ToVx : Obligations.StoreRegsStoresV0ToVx := by
  refine ⟨decodesRow_x (op := 0xF) (kk := 0x55) rfl (fun _ => rfl) (fun _ => rfl), fun x s hs =>
    ⟨_, rfl, fun r hr hin => State.memRead8_storeRegs_reg hs hr hin, fun a ha => ?_, onlyChanges_storeRegs⟩⟩
  obtain ⟨-, -, hread⟩ := State.storeRegs_spec hs (Nat.succ_le_of_lt x.isLt)
  rw [hread, if_neg]
  rintro ⟨-, k, hk, hka⟩
  exact ha ⟨k, Nat.lt_of_lt_of_le hk x.isLt⟩ (Nat.le_of_lt_succ hk) hka

/-- Settles O28: the load loop reads I as it was, and a read beyond memory is 0xFF. -/
theorem loadRegsLoadsV0ToVx : Obligations.LoadRegsLoadsV0ToVx :=
  ⟨decodesRow_x (op := 0xF) (kk := 0x65) rfl (fun _ => rfl) (fun _ => rfl), fun _ _ =>
    ⟨_, rfl, fun _ hr => State.getV_loadRegs_of_le hr, fun _ hr => State.getV_loadRegs_of_gt hr,
      fun _ hout => State.memRead8_of_ge hout, onlyChanges_loadRegs⟩⟩

/-- Settles O29: the load reads from where the store wrote, since the store leaves I and the load does not read the
registers in between. -/
theorem loadAfterStoreRestoresTheBlock : Obligations.LoadAfterStoreRestoresTheBlock := by
  refine fun x s w hs hin => ⟨_, _, rfl, rfl, fun r hr => ?_⟩
  have hi : (s.storeRegs (x.val + 1)).i = s.i := onlyChanges_storeRegs .i (by simp)
  have haddr : (s.storeRegs (x.val + 1)).effAddr r.val = s.effAddr r.val := by rw [State.effAddr, hi]; rfl
  rw [State.getV_loadRegs_of_le hr]
  calc (s.storeRegs (x.val + 1)).memRead8 ((s.storeRegs (x.val + 1)).effAddr r.val)
      = (s.storeRegs (x.val + 1)).memRead8 (s.effAddr r.val) := by rw [haddr]
    _ = s.getV r := State.memRead8_storeRegs_reg hs hr (hin r hr)

end Sys2Proof.Machine
end

section
/-! PROOFS. The display instructions (44_display.md R101 to R108): the clear, where `Dxyn` stops, and the sprite row by row. -/

namespace Sys2Proof.Machine

variable {s : State}

/-! ### The clear (R101) -/

/-- No pixel of a cleared display is on. -/
theorem pixelOf_replicate_zero {c : Config} (hc : c.wf) {px py : Nat} (hpx : px < c.dispW) (hpy : py < c.dispH) :
    pixelOf c (List.replicate c.dispBytes 0x00) px py = false := by
  have hbyte : py * c.bytesPerRow + px / 8 < c.dispBytes := by
    have hW := dispW_eq hc
    exact rowCol_lt hc hpy (by omega)
  rw [pixelOf, dispRead, if_pos hbyte, List.getD_replicate _ hbyte]
  exact BitVec.getLsbD_zero

/-- Settles O30: the display becomes a list of zero bytes, and every screen pixel is a bit of one of them. -/
theorem clsTurnsEveryPixelOff : Obligations.ClsTurnsEveryPixelOff :=
  ⟨decodesRow_x (op := 0x0) (kk := 0xE0) rfl (fun _ => rfl) (fun _ => rfl), fun _ _ =>
    ⟨_, rfl, List.length_replicate, fun _ => List.eq_of_mem_replicate,
      fun _ _ hpx hpy hc => pixelOf_replicate_zero hc hpx hpy, onlyChanges_setDisplay⟩⟩

/-! ### The two stops of `Dxyn` (R108) -/

/-- `Dxyn` does not stop exactly outside the two cases of R108. -/
theorem drwUnspecified_eq_none_iff {c : Config} {x y n : Nat} :
    drwUnspecified c x y n = none ↔
      ¬(c.drawWrap = true ∧ 2 * c.dispW ≤ x) ∧
      ¬(0 < n ∧ 256 ≤ y + n - 1 ∧ (c.drawWrap = false ∨ 256 % c.dispH ≠ 0)) := by
  have hcol : (decide (2 * c.dispW ≤ x) && c.drawWrap) = true ↔ c.drawWrap = true ∧ 2 * c.dispW ≤ x := by
    rw [Bool.and_eq_true, decide_eq_true_eq, and_comm]
  have hrow : (decide (0 < n) && decide (256 ≤ y + n - 1) && (decide (256 % c.dispH ≠ 0) || !c.drawWrap)) = true ↔
      0 < n ∧ 256 ≤ y + n - 1 ∧ (c.drawWrap = false ∨ 256 % c.dispH ≠ 0) := by
    simp only [Bool.and_eq_true, Bool.or_eq_true, decide_eq_true_eq, Bool.not_eq_true', and_assoc, or_comm]
  rw [← hcol, ← hrow, drwUnspecified]
  split
  case isTrue h => exact iff_of_false nofun fun hneither => hneither.1 h
  case isFalse hnotCol =>
    split
    case isTrue h => exact iff_of_false nofun fun hneither => hneither.2 h
    case isFalse hnotRow => exact iff_of_true rfl ⟨hnotCol, hnotRow⟩

theorem exec_drw_of_unspecified {x y : Reg} {n : Nibble} {reason : Unspecified}
    (h : drwUnspecified s.cfg (s.getV x).toNat (s.getV y).toNat n.val = some reason) :
    exec (.drw x y n) s = .fault (.unspecified reason s) := by
  simp only [exec, execDrw, h, State.raise]

theorem exec_drw_of_specified {x y : Reg} {n : Nibble}
    (h : drwUnspecified s.cfg (s.getV x).toNat (s.getV y).toNat n.val = none) :
    exec (.drw x y n) s = .next ((s.setDisplay (s.blit (s.getV x).toNat (s.getV y).toNat n.val).display).setV .vf
      (flagByte (s.blit (s.getV x).toNat (s.getV y).toNat n.val).collided)) := by
  simp only [exec, execDrw, h]

/-- Where the check finds a reason, `Dxyn` stops in the state it began in. -/
theorem exists_exec_drw_eq_fault {x y : Reg} {n : Nibble}
    (h : drwUnspecified s.cfg (s.getV x).toNat (s.getV y).toNat n.val ≠ none) :
    ∃ reason, exec (.drw x y n) s = .fault (.unspecified reason s) := by
  obtain ⟨reason, hreason⟩ := Option.ne_none_iff_exists'.mp h
  exact ⟨reason, exec_drw_of_unspecified hreason⟩

/-- Settles O32: the check is the only source of a fault, and it finds a reason exactly in the two cases. -/
theorem drwStopsExactlyWhereUnspecified : Obligations.DrwStopsExactlyWhereUnspecified := by
  refine ⟨decodesRow_xyn (op := 0xD) rfl (fun _ _ _ => rfl) (fun _ _ _ => rfl), fun x y n s =>
    ⟨fun hcol => exists_exec_drw_eq_fault fun hnone => ?_, fun hrow => exists_exec_drw_eq_fault fun hnone => ?_,
      fun f hfault => ?_⟩⟩
  · exact (drwUnspecified_eq_none_iff.mp hnone).1 hcol
  · exact (drwUnspecified_eq_none_iff.mp hnone).2 hrow
  · by_contra hneither
    rw [exec_drw_of_specified (drwUnspecified_eq_none_iff.mpr (not_or.mp hneither))] at hfault
    cases hfault

/-! ### The pixels that a sprite row covers (R104, R105) -/

variable {c : Config} {x y : Nat}

/-- A sprite row is drawn at its own row, reduced in wrap mode, when that is on the screen. -/
theorem screenRow_eq_some_iff (hc : c.wf) {r py : Nat} :
    screenRow c y r = some py ↔ py < c.dispH ∧ (if c.drawWrap then (y + r) % c.dispH else y + r) = py := by
  obtain ⟨-, -, -, -, -, hH⟩ := hc
  have hmod : (y + r) % c.dispH < c.dispH := Nat.mod_lt _ hH
  unfold screenRow
  cases c.drawWrap with
  | true =>
    simp only [if_true]
    split
    case isTrue hlt => rw [Option.some.injEq, Nat.mod_eq_of_lt hlt]; omega
    case isFalse => rw [Option.some.injEq]; omega
  | false =>
    simp only [Bool.false_eq_true, if_false]
    split
    case isTrue => rw [Option.some.injEq]; omega
    case isFalse => simp only [reduceCtorEq, false_iff]; omega

/-- The one subtraction of `DispW` reaches the screen, since the column is below `2 * DispW` (R108). -/
theorem screenCol_lt (hx : ¬(c.drawWrap = true ∧ 2 * c.dispW ≤ x)) {px0 : Nat} (h : screenCol c x = some px0) :
    px0 < c.dispW := by
  unfold screenCol at h
  split at h
  case isTrue hlt => cases h; exact hlt
  case isFalse =>
    split at h <;> cases h
    case isTrue hwrap =>
      have hlt : ¬2 * c.dispW ≤ x := fun hle => hx ⟨hwrap, hle⟩
      omega

/-- The subtraction of `DispW` does not change which screen columns a sprite byte covers. -/
theorem rowCovers_of_screenCol_eq_some {px0 : Nat} (h : screenCol c x = some px0) (b : Byte) (px : Nat) :
    rowCovers c px0 b px ↔ rowCovers c x b px := by
  unfold screenCol at h
  split at h
  case isTrue => cases h; rfl
  case isFalse hge =>
    split at h <;> cases h
    case isTrue hwrap =>
      have hmod (k : Nat) : (x - c.dispW + k) % c.dispW = (x + k) % c.dispW := by
        rw [← Nat.add_mod_right, show x - c.dispW + k + c.dispW = x + k by omega]
      simp only [rowCovers, hwrap, if_true, hmod]

/-- A sprite that is not drawn starts beyond the right edge, in no-wrap mode. -/
theorem not_rowCovers_of_screenCol_eq_none (h : screenCol c x = none) (b : Byte) {px : Nat} (hpx : px < c.dispW) :
    ¬rowCovers c x b px := by
  unfold screenCol at h
  split at h
  case isTrue => cases h
  case isFalse hge =>
    split at h
    case isTrue => cases h
    case isFalse hwrap =>
      rintro ⟨k, -, -, hk⟩
      rw [if_neg hwrap] at hk
      omega

/-- A sprite row covers a screen pixel when it is drawn at the pixel's row and its byte covers the pixel's column. -/
theorem State.covers_iff (hc : s.cfg.wf) {px py r : Nat} (hpy : py < s.cfg.dispH) :
    s.covers x y px py r ↔
      screenRow s.cfg y r = some py ∧ rowCovers s.cfg x (s.memRead8 (s.effAddr r)) px := by
  rw [screenRow_eq_some_iff hc, State.covers, rowCovers, and_iff_right hpy, ← exists_and_left]
  refine exists_congr fun k => ?_
  cases s.cfg.drawWrap <;> simp only [State.spriteBit, Bool.false_eq_true, if_true, if_false] <;> tauto

/-! ### The rows drawn one after the other (R102, R103, R107) -/

/-- What drawing one more row can do: it draws the sprite byte where the row covers the screen, or leaves all as it was where
the row covers nothing. -/
theorem State.blit_succ_cases (hc : s.cfg.wf) (hx : ¬(s.cfg.drawWrap = true ∧ 2 * s.cfg.dispW ≤ x)) (y r : Nat) :
    (∃ py0 < s.cfg.dispH, ∃ px0 < s.cfg.dispW,
      s.blit x y (r + 1) = blitRow s.cfg py0 px0 (s.memRead8 (s.effAddr r)) (s.blit x y r) ∧
      ∀ px < s.cfg.dispW, ∀ py < s.cfg.dispH,
        s.covers x y px py r ↔ py = py0 ∧ rowCovers s.cfg px0 (s.memRead8 (s.effAddr r)) px) ∨
    (s.blit x y (r + 1) = s.blit x y r ∧ ∀ px < s.cfg.dispW, ∀ py < s.cfg.dispH, ¬s.covers x y px py r) := by
  rw [State.blit]
  cases hrow : screenRow s.cfg y r with
  | none =>
    refine .inr ⟨rfl, fun px _ py hpy hcovers => ?_⟩
    obtain ⟨hdrawn, -⟩ := (State.covers_iff hc hpy).mp hcovers
    rw [hrow] at hdrawn
    cases hdrawn
  | some py0 =>
    obtain ⟨hpy0, -⟩ := (screenRow_eq_some_iff hc).mp hrow
    cases hcol : screenCol s.cfg x with
    | none =>
      refine .inr ⟨rfl, fun px hpx py hpy hcovers => ?_⟩
      obtain ⟨-, hbyte⟩ := (State.covers_iff hc hpy).mp hcovers
      exact not_rowCovers_of_screenCol_eq_none hcol _ hpx hbyte
    | some px0 =>
      refine .inl ⟨py0, hpy0, px0, screenCol_lt hx hcol, rfl, fun px _ py hpy => ?_⟩
      rw [State.covers_iff hc hpy, hrow, Option.some.injEq, eq_comm (a := py0), rowCovers_of_screenCol_eq_some hcol]

/-- A screen pixel, drawn row by row, is its old value flipped once for each row that covers it. -/
theorem State.pixelOf_blit (hc : s.cfg.wf) (hl : s.display.length = s.cfg.dispBytes)
    (hx : ¬(s.cfg.drawWrap = true ∧ 2 * s.cfg.dispW ≤ x)) {px py : Nat} (hpx : px < s.cfg.dispW) (hpy : py < s.cfg.dispH)
    (n : Nat) :
    pixelOf s.cfg (s.blit x y n).display px py = true ↔ s.flipped x y px py n := by
  induction n with
  | zero => rfl
  | succ r ih =>
    rw [State.flipped, ← ih]
    obtain ⟨py0, hpy0, px0, hpx0, hblit, hcovers⟩ | ⟨hblit, hcovers⟩ := State.blit_succ_cases hc hx y r
    · rw [hblit, pixelOf_blitRow hc ((s.blit_length x y r).trans hl) hpy0 hpx0 _ py hpx, hcovers px hpx py hpy]
    · rw [hblit, iff_false_intro (hcovers px hpx py hpy), xor_comm, xor_false, id]

/-- The collisions of the first `r + 1` rows are those of the first `r` and those of row `r`. -/
theorem State.collides_succ {r : Nat} :
    s.collides x y (r + 1) ↔
      s.collides x y r ∨ ∃ px < s.cfg.dispW, ∃ py < s.cfg.dispH, s.flipped x y px py r ∧ s.covers x y px py r :=
  Nat.exists_lt_succ_right

/-- The blitter has seen a collision in the first `n` rows exactly when one of them collides. -/
theorem State.blit_collided (hc : s.cfg.wf) (hl : s.display.length = s.cfg.dispBytes)
    (hx : ¬(s.cfg.drawWrap = true ∧ 2 * s.cfg.dispW ≤ x)) (n : Nat) :
    (s.blit x y n).collided = true ↔ s.collides x y n := by
  induction n with
  | zero => exact ⟨nofun, fun ⟨_, hlt, _⟩ => absurd hlt (Nat.not_lt_zero _)⟩
  | succ r ih =>
    rw [State.collides_succ, ← ih]
    obtain ⟨py0, hpy0, px0, hpx0, hblit, hcovers⟩ | ⟨hblit, hcovers⟩ := State.blit_succ_cases hc hx y r
    · rw [hblit, blitRow_collided hc ((s.blit_length x y r).trans hl) hpy0 hpx0]
      refine or_congr_right (exists_congr fun px => and_congr_right fun hpx => ⟨fun ⟨hon, hbyte⟩ => ?_, ?_⟩)
      · exact ⟨py0, hpy0, (State.pixelOf_blit hc hl hx hpx hpy0 r).mp hon, (hcovers px hpx py0 hpy0).mpr ⟨rfl, hbyte⟩⟩
      · rintro ⟨py, hpy, hon, hcov⟩
        obtain ⟨rfl, hbyte⟩ := (hcovers px hpx py hpy).mp hcov
        exact ⟨(State.pixelOf_blit hc hl hx hpx hpy r).mpr hon, hbyte⟩
    · rw [hblit, or_iff_left]
      rintro ⟨px, hpx, py, hpy, -, hcov⟩
      exact hcovers px hpx py hpy hcov

/-- Settles O31: the display and the flag are what the rows leave, by induction on the number of rows. -/
theorem drwFlipsThePixelsTheSpriteCovers : Obligations.DrwFlipsThePixelsTheSpriteCovers := by
  intro x y n s hs hx hrow
  obtain ⟨hc, -, -, -, hl⟩ := hs
  have hexec := exec_drw_of_specified (drwUnspecified_eq_none_iff.mpr ⟨hx, hrow⟩)
  have hcollided := State.blit_collided (y := (s.getV y).toNat) hc hl hx n.val
  refine ⟨_, hexec, fun px py hpx hpy => State.pixelOf_blit hc hl hx hpx hpy n.val, fun h => ?_, fun h => ?_,
    fun _ hr => State.getV_setV_of_ne hr _, exec_onlyChanges hexec⟩
  · rw [State.getV_setV_same, hcollided.mpr h]
    rfl
  · rw [State.getV_setV_same, Bool.eq_false_iff.mpr (mt hcollided.mp h)]
    rfl

end Sys2Proof.Machine
end

section
/-! PROOFS. The timer tick and the timer instructions (45_timers.md R111 to R115). -/

namespace Sys2Proof.Machine

variable {s : State}

/-! ### The tick (R112) -/

/-- The decrement stops at zero, as the subtraction of natural numbers does (D2). -/
theorem countDown_toNat (b : Byte) : (countDown b).toNat = b.toNat - 1 := by
  unfold countDown
  split
  case isTrue hpos => exact BitVec.toNat_sub_of_le (BitVec.le_def.mpr hpos)
  case isFalse hzero => omega

theorem onlyChanges_timerTick : OnlyChanges [.dt, .st] s s.timerTick :=
  (onlyChanges_setDt.mono (by simp)).trans (onlyChanges_setSt.mono (by simp))

theorem applyEvent_timerTick_of_running (hrun : s.running = true) : applyEvent .timerTick s = .next s.timerTick := by
  rw [applyEvent, if_pos hrun]

/-- Settles O33: the event of a running machine is the tick, which counts each timer down. -/
theorem timerTickCountsDownToZero : Obligations.TimerTickCountsDownToZero := fun s hpaused hstopped =>
  ⟨_, applyEvent_timerTick_of_running (State.running_of hpaused hstopped), countDown_toNat s.dt, countDown_toNat s.st,
    onlyChanges_timerTick⟩

/-! ### The delay timer (R113, R114) -/

/-- Settles O34: each instruction is one write, of a register or of DT. -/
theorem delayTimerIsReadAndWritten : Obligations.DelayTimerIsReadAndWritten :=
  ⟨decodesRow_x (op := 0xF) (kk := 0x07) rfl (fun _ => rfl) (fun _ => rfl),
    decodesRow_x (op := 0xF) (kk := 0x15) rfl (fun _ => rfl) (fun _ => rfl), fun x s =>
    ⟨⟨_, rfl, s.getV_setV_same x s.dt, fun _ hr => State.getV_setV_of_ne hr _, onlyChanges_setV⟩,
      ⟨_, rfl, s.setDt_dt (s.getV x), onlyChanges_setDt⟩⟩⟩

/-! ### The sound timer (R115) -/

theorem exec_ldStVx_of_zero {x : Reg} (h : s.getV x = 0) : exec (.ldStVx x) s = .next s := by
  rw [exec, execLdStVx, if_neg fun hne => bne_iff_ne.mp hne h]

theorem exec_ldStVx_of_ne_zero {x : Reg} (h : s.getV x ≠ 0) : exec (.ldStVx x) s = .next (s.setSt (s.getV x)) := by
  rw [exec, execLdStVx, if_pos (bne_iff_ne.mpr h)]

/-- Settles O35: a zero value leaves the whole state, and any other is written to ST. -/
theorem soundTimerTakesNonZeroValuesOnly : Obligations.SoundTimerTakesNonZeroValuesOnly := by
  refine ⟨decodesRow_x (op := 0xF) (kk := 0x18) rfl (fun _ => rfl) (fun _ => rfl), fun x s => ?_⟩
  by_cases hzero : s.getV x = 0
  · exact ⟨s, exec_ldStVx_of_zero hzero, (if_pos hzero).symm, .refl _ s⟩
  · exact ⟨_, exec_ldStVx_of_ne_zero hzero, (if_neg hzero).symm, onlyChanges_setSt⟩

end Sys2Proof.Machine
end

section
/-! PROOFS. The keys (46_keys.md R116 to R120): the skips on a key, the wait of `Fx0A`, and the invariant of the wait. -/

namespace Sys2Proof.Machine
open Sys2Proof.Claims

variable {s t : State} {x : Reg}

/-! ### The invariant of the wait (R120) -/

/-- Only `Fx0A` writes the state of the key wait. -/
theorem eq_ldVxK_of_wait_mem_mayChange {i : Instr} (h : .wait ∈ mayChange i) : ∃ x, i = .ldVxK x := by
  cases i with
  | ldVxK x => exact ⟨x, rfl⟩
  | _ => simp [mayChange] at h

/-- The instruction fetched keeps the invariant: an `Fx0A` that waits on has rewound PC to its own address, and after any other
instruction the core watches only if it did before, which the invariant rules out. -/
theorem exec_fetched_keeps_waitInv (hs : s.waitInv) (h : exec (decodeWord (s.memRead16 s.pc)) s.fetched = .next t) :
    t.waitInv := by
  intro hwatching
  by_cases hwait : ∃ x, decodeWord (s.memRead16 s.pc) = .ldVxK x
  · obtain ⟨x, hx⟩ := hwait
    rw [hx] at h
    obtain ⟨-, _, -, rfl⟩ | ⟨-, rfl⟩ := exec_ldVxK_next h
    · cases hwatching
    · exact ⟨rfl, x, hx⟩
  · obtain ⟨-, hsame⟩ := exec_onlyChanges h .wait (mt eq_ldVxK_of_wait_mem_mayChange hwait)
    obtain ⟨-, hx⟩ := hs (hsame.symm.trans hwatching)
    exact absurd hx hwait

theorem applyEvent_keeps_waitInv {e : Event} (hs : s.waitInv) (h : applyEvent e s = .next t) : t.waitInv := by
  obtain ⟨-, h⟩ | ⟨-, rfl⟩ | ⟨k, b, -, rfl⟩ | ⟨-, rfl⟩ | ⟨-, rfl⟩ | ⟨-, rfl⟩ := applyEvent_next_cases h
  · obtain ⟨-, rfl⟩ | ⟨-, u, hexec, rfl⟩ := coreStep_next_cases h
    · exact hs
    · have hu : u.waitInv := exec_fetched_keeps_waitInv hs hexec
      exact hu
  · split <;> exact hs
  all_goals exact hs

/-- Settles O52: the step is one event on the state with that event off the schedule, and every event keeps the invariant. -/
theorem stepKeepsTheKeyWaitOnItsInstruction : Obligations.StepKeepsTheKeyWaitOnItsInstruction := by
  intro s t hs h
  have hadvance : s.advance.waitInv := hs
  exact applyEvent_keeps_waitInv hadvance h

/-! ### The key that ends the wait (R119) -/

theorem State.newKey_eq_none_iff : s.newKey = none ↔ ∀ k : Key, s.keys[k] = true → s.kprev[k] = true := by
  rw [State.newKey, ← Fin.find?_eq_find?_finRange, Fin.find?_eq_none_iff]
  simp only [Bool.and_eq_false_imp, Bool.not_eq_false']

theorem State.newKey_eq_some_iff {k : Key} :
    s.newKey = some k ↔ (s.keys[k] = true ∧ s.kprev[k] = false) ∧ ∀ j < k, s.keys[j] = true → s.kprev[j] = true := by
  rw [State.newKey, ← Fin.find?_eq_find?_finRange, Fin.find?_eq_some_iff]
  simp only [Bool.and_eq_true, Bool.not_eq_true', Bool.and_eq_false_imp, Bool.not_eq_false']

theorem exec_ldVxK_of_newKey {k : Key} (hwatching : s.watching = true) (hk : s.newKey = some k) :
    exec (.ldVxK x) s = .next ((s.setV x (BitVec.ofNat 8 k.val)).setWait s.kprev false) := by
  simp only [exec, execLdVxK, hwatching, hk, if_true]

/-- Not watching yet, or watching with no new key: both snapshot the keys and rewind PC. -/
theorem exec_ldVxK_of_no_newKey (h : s.watching = false ∨ s.newKey = none) :
    exec (.ldVxK x) s = .next ((s.setWait s.keys true).setPc s.mar) := by
  rw [exec, execLdVxK]
  split
  case isFalse => rfl
  case isTrue hwatching =>
    obtain hfirst | hnone := h
    · rw [hfirst] at hwatching; cases hwatching
    · rw [hnone]

theorem onlyChanges_setWait_setPc {ks : Vector Bool 16} {w : Bool} {a : Word} :
    OnlyChanges [.pc, .wait] s ((s.setWait ks w).setPc a) :=
  (onlyChanges_setWait.mono (by simp)).trans (onlyChanges_setPc.mono (by simp))

theorem onlyChanges_setV_setWait {b : Byte} {ks : Vector Bool 16} {w : Bool} :
    OnlyChanges [.v, .wait] s ((s.setV x b).setWait ks w) :=
  (onlyChanges_setV.mono (by simp)).trans (onlyChanges_setWait.mono (by simp))

/-- The number of a key fits a register. -/
theorem key_toNat_ofNat (k : Key) : (BitVec.ofNat 8 k.val).toNat = k.val := Nat.mod_eq_of_lt (by omega)

/-- Settles O37: the first two clauses are those of a core that waits, the third that of a new key, and each of the two cases
rules the other's clauses out. -/
theorem keyWaitStoresTheLowestNewKey : Obligations.KeyWaitStoresTheLowestNewKey := by
  refine ⟨decodesRow_x (op := 0xF) (kk := 0x0A) rfl (fun _ => rfl) (fun _ => rfl), fun x s => ?_⟩
  by_cases hwait : s.watching = false ∨ s.newKey = none
  · refine ⟨_, exec_ldVxK_of_no_newKey hwait, fun _ => ⟨rfl, rfl, rfl, onlyChanges_setWait_setPc⟩,
      fun _ _ => ⟨rfl, rfl, rfl, onlyChanges_setWait_setPc⟩, fun hwatching k hpressed hold hlowest => ?_⟩
    have hk : s.newKey = some k := State.newKey_eq_some_iff.mpr ⟨⟨hpressed, hold⟩, hlowest⟩
    simp [hwatching, hk] at hwait
  · obtain ⟨hwatching, hnew⟩ := not_or.mp hwait
    obtain ⟨k, hk⟩ := Option.ne_none_iff_exists'.mp hnew
    refine ⟨_, exec_ldVxK_of_newKey (Bool.eq_true_of_not_eq_false hwatching) hk, fun h => absurd h hwatching,
      fun _ hnone => absurd (State.newKey_eq_none_iff.mpr hnone) hnew, fun _ j hpressed hold hlowest =>
      ⟨?_, rfl, rfl, fun _ hr => State.getV_setV_of_ne hr _, onlyChanges_setV_setWait⟩⟩
    have hj : s.newKey = some j := State.newKey_eq_some_iff.mpr ⟨⟨hpressed, hold⟩, hlowest⟩
    obtain rfl : k = j := Option.some.inj (hk.symm.trans hj)
    rw [State.getV_setWait, State.getV_setV_same, key_toNat_ofNat]

/-! ### The skips (R117, R118) -/

theorem State.keyAt_of_eq {b : Byte} {k : Key} (h : b.toNat = k.val) : s.keyAt b = some s.keys[k] := by
  rw [State.keyAt_of_lt (h ▸ k.isLt)]
  simp only [h, Fin.getElem_fin]

theorem exec_skp_of_key {k : Key} (h : (s.getV x).toNat = k.val) : exec (.skp x) s = .next (s.skipIf s.keys[k]) := by
  rw [exec, execSkp, State.keyAt_of_eq h]

theorem exec_sknp_of_key {k : Key} (h : (s.getV x).toNat = k.val) : exec (.sknp x) s = .next (s.skipIf (!s.keys[k])) := by
  rw [exec, execSknp, State.keyAt_of_eq h]

theorem exec_skp_of_ge (h : 16 ≤ (s.getV x).toNat) : exec (.skp x) s = s.raise .skpKeyOutOfRange := by
  rw [exec, execSkp, State.keyAt_of_ge h]

theorem exec_sknp_of_ge (h : 16 ≤ (s.getV x).toNat) : exec (.sknp x) s = s.raise .sknpKeyOutOfRange := by
  rw [exec, execSknp, State.keyAt_of_ge h]

/-- Settles O36: for a key the one write is that of PC, and for no key there is no write. -/
theorem keySkipsTestTheCurrentKey : Obligations.KeySkipsTestTheCurrentKey := by
  refine ⟨decodesRow_x (op := 0xE) (kk := 0x9E) rfl (fun _ => rfl) (fun _ => rfl),
    decodesRow_x (op := 0xE) (kk := 0xA1) rfl (fun _ => rfl) (fun _ => rfl), fun x s =>
    ⟨fun k hk => ⟨⟨_, exec_skp_of_key hk, s.skipIf_pc _, onlyChanges_skipIf⟩,
      ⟨_, exec_sknp_of_key hk, ?_, onlyChanges_skipIf⟩⟩, fun h => ⟨exec_skp_of_ge h, exec_sknp_of_ge h⟩⟩⟩
  simp only [State.skipIf_pc, Bool.not_eq_true', ← Bool.not_eq_true, ite_not]

end Sys2Proof.Machine
end

section
/-! PROOFS. The stops (60_exceptions.md R124): an instruction stops exactly where it meets a listed condition, with the state as it
is, and the core's step is the only event that stops. -/

namespace Sys2Proof.Machine
open Sys2Proof.Claims

variable {s : State} {i : Instr} {f : Fault}

/-! ### The sites -/

/-- Each reason that the check of `Dxyn` gives is that of a case of R108. -/
theorem stopsFor_of_drwUnspecified {x y : Reg} {n : Nibble} {r : Unspecified}
    (h : drwUnspecified s.cfg (s.getV x).toNat (s.getV y).toNat n.val = some r) : stopsFor (.drw x y n) s r := by
  unfold drwUnspecified at h
  split at h
  case isTrue hcol =>
    cases h
    simp only [Bool.and_eq_true, decide_eq_true_eq] at hcol
    exact ⟨x, y, n, rfl, hcol.symm⟩
  case isFalse =>
    split at h
    case isTrue hrow =>
      cases h
      simp only [Bool.and_eq_true, Bool.or_eq_true, decide_eq_true_eq, Bool.not_eq_true'] at hrow
      obtain ⟨⟨hn, hbeyond⟩, hmode⟩ := hrow
      exact ⟨x, y, n, rfl, hn, hbeyond, hmode.symm⟩
    case isFalse => cases h

/-- An instruction that stops meets the condition it stops for, and the stop carries the state it began in. -/
theorem stopsFor_of_exec_eq_fault (h : exec i s = .fault f) : ∃ r, f = .unspecified r s ∧ stopsFor i s r := by
  cases i with
  | ret x => simp only [exec, execRet] at h; split at h <;> cases h
  | drw x y n =>
    cases hcheck : drwUnspecified s.cfg (s.getV x).toNat (s.getV y).toNat n.val with
    | none => rw [exec_drw_of_specified hcheck] at h; cases h
    | some r =>
      rw [exec_drw_of_unspecified hcheck] at h; cases h
      exact ⟨r, rfl, stopsFor_of_drwUnspecified hcheck⟩
  | skp x =>
    obtain hkey | hbeyond := Nat.lt_or_ge (s.getV x).toNat 16
    · rw [exec_skp_of_key (k := ⟨_, hkey⟩) rfl] at h; cases h
    · rw [exec_skp_of_ge hbeyond] at h; cases h
      exact ⟨_, rfl, x, rfl, hbeyond⟩
  | sknp x =>
    obtain hkey | hbeyond := Nat.lt_or_ge (s.getV x).toNat 16
    · rw [exec_sknp_of_key (k := ⟨_, hkey⟩) rfl] at h; cases h
    · rw [exec_sknp_of_ge hbeyond] at h; cases h
      exact ⟨_, rfl, x, rfl, hbeyond⟩
  | ldVxK x =>
    simp only [exec, execLdVxK] at h
    split at h
    · split at h <;> cases h
    · cases h
  | ldF x =>
    obtain hdigit | hbeyond := Nat.lt_or_ge (s.getV x).toNat 16
    · rw [exec_ldF_of_lt hdigit] at h; cases h
    · rw [exec_ldF_of_ge hbeyond] at h; cases h
      exact ⟨_, rfl, x, rfl, hbeyond⟩
  | _ => cases h

/-- An instruction that meets one of the conditions stops. Where `Dxyn` meets both of its own, it reports the column (log 16). -/
theorem exists_exec_eq_fault_of_stopsFor {r : Unspecified} (h : stopsFor i s r) :
    ∃ q, exec i s = .fault (.unspecified q s) := by
  cases r with
  | fontDigitOutOfRange => obtain ⟨x, rfl, hbeyond⟩ := h; exact ⟨_, exec_ldF_of_ge hbeyond⟩
  | skpKeyOutOfRange => obtain ⟨x, rfl, hbeyond⟩ := h; exact ⟨_, exec_skp_of_ge hbeyond⟩
  | sknpKeyOutOfRange => obtain ⟨x, rfl, hbeyond⟩ := h; exact ⟨_, exec_sknp_of_ge hbeyond⟩
  | drwColumnOffScreen =>
    obtain ⟨x, y, n, rfl, hcol⟩ := h
    exact exists_exec_drw_eq_fault fun hnone => (drwUnspecified_eq_none_iff.mp hnone).1 hcol
  | drwRowBeyondByte =>
    obtain ⟨x, y, n, rfl, hrow⟩ := h
    exact exists_exec_drw_eq_fault fun hnone => (drwUnspecified_eq_none_iff.mp hnone).2 hrow

/-! ### The step that stops -/

/-- A core's step that stops is the stop of the fetched instruction. -/
theorem exec_eq_fault_of_coreStep (h : coreStep s = .fault f) :
    exec (decodeWord (s.memRead16 s.pc)) s.fetched = .fault f := by
  unfold coreStep at h
  split at h
  · cases hexec : exec (decodeWord (s.memRead16 s.pc)) s.fetched <;> rw [hexec] at h <;> cases h
    rfl
  · cases h

/-- No event but the core's step stops. -/
theorem eq_coreStep_of_applyEvent_eq_fault {e : Event} (h : applyEvent e s = .fault f) : e = .coreStep := by
  cases e with
  | coreStep => rfl
  | _ => cases h

/-- Settles O50: an instruction stops if and only if it meets a condition, and before it the step has only fetched. -/
theorem unspecifiedStopsAreTheListedOnes : Obligations.UnspecifiedStopsAreTheListedOnes := by
  refine ⟨fun i s => ?_, fun s f h => ?_⟩
  · cases hexec : exec i s with
    | next t =>
      refine .inl ⟨t, rfl, fun r hr => ?_⟩
      obtain ⟨q, hfault⟩ := exists_exec_eq_fault_of_stopsFor hr
      rw [hexec] at hfault; cases hfault
    | fault f =>
      obtain ⟨r, rfl, hr⟩ := stopsFor_of_exec_eq_fault hexec
      exact .inr ⟨r, rfl, hr⟩
    | refused r => exact absurd hexec exec_ne_refused
  · have hevent : s.nextEvent = .coreStep := eq_coreStep_of_applyEvent_eq_fault h
    rw [step_of_nextEvent hevent] at h
    obtain ⟨r, rfl, -⟩ := stopsFor_of_exec_eq_fault (exec_eq_fault_of_coreStep h)
    exact ⟨hevent, r, _, rfl, rfl, rfl, (onlyChanges_advance.mono (by simp)).trans (onlyChanges_fetched.mono (by simp))⟩

end Sys2Proof.Machine
end

section
/-! PROOFS. The host (60_exceptions.md R134, R136): one key set, the pause, the resume and the stop. -/

namespace Sys2Proof.Machine

variable {s : State} {k : Key} {b : Bool}

/-! ### A key (R134) -/

theorem State.keys_setKeyState_same : (s.setKeyState k b).keys[k] = b := Vector.getElem_set_self _

theorem State.keys_setKeyState_of_ne {j : Key} (h : j ≠ k) : (s.setKeyState k b).keys[j] = s.keys[j] :=
  Vector.getElem_set_ne k.isLt j.isLt fun hval => h (Fin.ext hval.symm)

theorem onlyChanges_setKeyState : OnlyChanges [.keys] s (s.setKeyState k b) := by
  simp [OnlyChanges, Part.forall_iff, Part.same]

/-- The key pressed is the new key if it is not in the snapshot and every other key pressed is. -/
theorem State.newKey_setKeyState (hold : s.kprev[k] = false)
    (hothers : ∀ j : Key, j ≠ k → s.keys[j] = true → s.kprev[j] = true) : (s.setKeyState k true).newKey = some k := by
  refine State.newKey_eq_some_iff.mpr ⟨⟨State.keys_setKeyState_same, hold⟩, fun j hj hpressed => ?_⟩
  have hne : j ≠ k := Fin.ne_of_lt hj
  rw [State.keys_setKeyState_of_ne hne] at hpressed
  exact hothers j hne hpressed

/-- Settles O60: one key is written, and where it is the only new one the wait ends with its number. -/
theorem setKeyStateSetsOneKey : Obligations.SetKeyStateSetsOneKey := by
  refine fun s k b => ⟨_, rfl, State.keys_setKeyState_same, fun j hj => State.keys_setKeyState_of_ne hj,
    onlyChanges_setKeyState, fun x hwatching hold hb hothers => ?_⟩
  subst hb
  refine ⟨_, exec_ldVxK_of_newKey hwatching (State.newKey_setKeyState hold hothers), ?_, rfl⟩
  rw [State.getV_setWait, State.getV_setV_same, key_toNat_ofNat]

/-! ### Pause, resume and stop (R136) -/

theorem onlyChanges_setPaused : OnlyChanges [.paused] s (s.setPaused b) := by
  simp [OnlyChanges, Part.forall_iff, Part.same]

theorem onlyChanges_stop : OnlyChanges [.stopped] s s.stop := by
  simp [OnlyChanges, Part.forall_iff, Part.same]

theorem State.running_eq_false_iff : s.running = false ↔ s.paused = true ∨ s.stopped = true := by
  simp only [State.running, Bool.and_eq_false_iff, Bool.not_eq_false']

theorem applyEvent_coreStep_of_not_running (h : s.running = false) : applyEvent .coreStep s = .next s := by
  rw [applyEvent, coreStep, h]; rfl

theorem applyEvent_timerTick_of_not_running (h : s.running = false) : applyEvent .timerTick s = .next s := by
  rw [applyEvent, h]; rfl

/-- Settles O59: a machine that is paused or stopped is not running, and its step takes the event off the schedule first. -/
theorem pauseResumeAndStop : Obligations.PauseResumeAndStop := by
  refine fun s => ⟨⟨_, rfl, rfl, onlyChanges_setPaused⟩, ⟨_, rfl, rfl, onlyChanges_setPaused⟩,
    ⟨_, rfl, rfl, onlyChanges_stop⟩, fun h => ?_, step_cons⟩
  have hs : s.running = false := State.running_eq_false_iff.mpr h
  have hadvance : s.advance.running = false := hs
  refine ⟨applyEvent_coreStep_of_not_running hs, applyEvent_timerTick_of_not_running hs, fun hevent => ?_⟩
  obtain hevent | hevent := hevent <;> rw [step_of_nextEvent hevent]
  · exact applyEvent_coreStep_of_not_running hadvance
  · exact applyEvent_timerTick_of_not_running hadvance

end Sys2Proof.Machine
end

section
/-! PROOFS. The loading of a program (70_reset_and_hazards.md R142, R143): what it leaves in memory and in the core, and the
program that is too long. -/

namespace Sys2Proof.Machine

variable {s : State} {p : List Byte}

/-- Memory with nothing listed is the font and zeros (10_state.md R29, R31). -/
theorem Memory.read_nil (font : Vector Byte 80) (a : Nat) :
    Memory.read font [] a = if h : a < 80 then font[a] else 0x00 := by
  split
  case isTrue h => simp [Memory.read, Memory.unlisted, h]
  case isFalse h => exact Memory.read_nil_of_ge font (Nat.not_lt.mp h)

/-- The bytes in range after the load: the program's from 0x200 on, else those of memory with nothing listed. -/
theorem State.memRead8_loaded {a : Word} (h : a.toNat < s.cfg.memSize) :
    (s.loaded p).memRead8 a =
      if 0x200 ≤ a.toNat ∧ a.toNat < 0x200 + p.length then p.getD (a.toNat - 0x200) 0x00
      else if h : a.toNat < 80 then s.cfg.fontTable[a.toNat] else 0x00 := by
  have hin : a.toNat < (s.loaded p).cfg.memSize := h
  rw [State.memRead8, if_pos hin, ← Memory.read_nil]
  exact read_storeBytes .nil a.toNat

theorem State.getV_loaded (r : Reg) : (s.loaded p).getV r = 0x00 := Vector.getElem_replicate _

theorem State.kprev_loaded (k : Key) : (s.loaded p).kprev[k] = false := Vector.getElem_replicate _

theorem loadProgram_of_le (h : p.length + 0x200 ≤ s.cfg.memSize) : loadProgram p s = .next (s.loaded p) := if_pos h

theorem loadProgram_of_gt (h : s.cfg.memSize - 0x200 < p.length) : loadProgram p s = .refused .programTooLong :=
  if_neg (by omega)

theorem launch_of_wf {c : Config} (hc : c.wf) (b : Bool) : launch c b p = loadProgram p (State.constructed c b) := if_pos hc

/-- Settles O56: every field but memory, the registers and the key snapshot holds the value that the load writes out. -/
theorem loadProgramResetsTheCore : Obligations.LoadProgramResetsTheCore := fun _ _ h =>
  ⟨_, loadProgram_of_le h, fun _ => State.memRead8_loaded, rfl, State.getV_loaded, rfl, rfl, rfl, rfl, rfl, rfl, rfl,
    State.kprev_loaded, rfl, rfl, rfl, rfl, rfl⟩

/-- Settles O57: the launch of a legal configuration is refused because its load is. -/
theorem tooLongProgramIsRefused : Obligations.TooLongProgramIsRefused := by
  refine ⟨fun _ _ _ h => loadProgram_of_gt h, fun c b p hc h => ?_⟩
  rw [launch_of_wf hc]
  exact loadProgram_of_gt h

end Sys2Proof.Machine
end

section
/-! PROOFS. A halted state (70_reset_and_hazards.md R146, D39): the word at PC jumps to its own address, so a run ends there
and every event leaves the machine there. -/

namespace Sys2Proof.Machine

variable {s t : State} {h : Word} {σ : Nat → Event}

/-! ### The word of a jump to itself (42_control_flow.md R83) -/

theorem selfJump_toNat (hh : h.toNat ≤ 0xFFF) : (0x1000 ||| h : Word).toNat = 0x1000 + h.toNat :=
  (BitVec.toNat_or ..).trans (Nat.two_pow_add_eq_or_of_lt (i := 12) (Nat.lt_succ_of_le hh) 1).symm

theorem decodeWord_selfJump (hh : h.toNat ≤ 0xFFF) :
    decodeWord (0x1000 ||| h : Word) = .jp (fieldNNN (0x1000 ||| h : Word)) := by
  have hword : encode (.jp (fieldNNN (0x1000 ||| h : Word))) = 0x1000 ||| h :=
    wordNNN_fields (by rw [selfJump_toNat hh]; omega)
  rw [← hword, decodeWord_encode rfl, hword]

theorem addr16_fieldNNN_selfJump (hh : h.toNat ≤ 0xFFF) : addr16 (fieldNNN (0x1000 ||| h : Word)) = h := by
  apply BitVec.eq_of_toNat_eq
  rw [addr16_toNat, fieldNNN_toNat, selfJump_toNat hh]
  omega

/-! ### The events -/

/-- The instruction fetched at a halted state sets PC to the address of the halt, and nothing else. -/
theorem exec_of_haltedAt (hs : s.haltedAt h) (u : State) :
    exec (decodeWord (s.memRead16 s.pc)) u = .next (u.setPc h) := by
  obtain ⟨hh, hpc, hword, -⟩ := hs
  rw [hpc, hword, decodeWord_selfJump hh, exec, execJp, addr16_fieldNNN_selfJump hh]

/-- The fetch, the jump and the count lead back to the halted state. -/
theorem haltedAt_fetched_setPc_counted (hs : s.haltedAt h) : (s.fetched.setPc h).counted.haltedAt h := by
  obtain ⟨hh, -, hword, hwatching⟩ := hs
  exact ⟨hh, rfl, hword, hwatching⟩

theorem coreStep_of_haltedAt (hrun : s.running = true) (hs : s.haltedAt h) :
    coreStep s = .next (s.fetched.setPc h).counted := by
  rw [coreStep_of_running hrun, exec_of_haltedAt hs]
  rfl

/-- No event but the core's step writes PC, memory or the flag of the key wait. -/
theorem applyEvent_of_haltedAt (hs : s.haltedAt h) (e : Event) : ∃ t, applyEvent e s = .next t ∧ t.haltedAt h := by
  cases e with
  | coreStep =>
    cases hrun : s.running with
    | false => exact ⟨s, applyEvent_coreStep_of_not_running hrun, hs⟩
    | true => exact ⟨_, coreStep_of_haltedAt hrun hs, haltedAt_fetched_setPc_counted hs⟩
  | timerTick =>
    cases hrun : s.running with
    | false => exact ⟨s, applyEvent_timerTick_of_not_running hrun, hs⟩
    | true => exact ⟨_, applyEvent_timerTick_of_running hrun, hs⟩
  | setKeyState | pause | resume | stop => exact ⟨_, rfl, hs⟩

/-! ### The run and the step -/

theorem runEnds_iff_of_halted (hs : s.halted) : RunEnds σ s t ↔ t = s := by
  have hend : RunEnds σ s s := ⟨0, runStatus_of_halted hs⟩
  exact ⟨fun ht => ht.unique hend, fun ht => ht ▸ hend⟩

/-- A part that is the same after all need not stand in the frame. -/
theorem OnlyChanges.of_cons {p : Part} {l : List Part} (hl : OnlyChanges (p :: l) s t) (hp : p.same s t) :
    OnlyChanges l s t := by
  intro q hq
  by_cases hqp : q = p
  · exact hqp ▸ hp
  · exact hl q (List.not_mem_cons_of_ne_of_not_mem hqp hq)

/-- The step at a halted state: PC is advanced and set back, so it is not in the frame. -/
theorem onlyChanges_step_of_haltedAt (hs : s.haltedAt h) :
    OnlyChanges [.mar, .cycle, .schedule] s (s.advance.fetched.setPc h).counted := by
  obtain ⟨-, hpc, -, -⟩ := hs
  have hframe : OnlyChanges [.pc, .mar, .cycle, .schedule] s (s.advance.fetched.counted.setPc h) :=
    onlyChanges_advance_fetched_counted.trans (onlyChanges_setPc.mono (by simp))
  exact hframe.of_cons hpc.symm

/-- Settles O44: the run ends before its first event, and the events keep the halted state. -/
theorem haltedStateStaysHalted : Obligations.HaltedStateStaysHalted := by
  intro s h hs
  refine ⟨fun _ _ => runEnds_iff_of_halted (State.halted_iff.mpr ⟨h, hs⟩), applyEvent_of_haltedAt hs,
    fun hevent hpaused hstopped => ?_⟩
  have hadvance : s.advance.haltedAt h := hs
  have hmar : s.pc = h := by
    obtain ⟨-, hpc, -, -⟩ := hs
    exact hpc
  exact ⟨_, step_eq_next hevent (State.running_of hpaused hstopped) rfl (exec_of_haltedAt hs _),
    haltedAt_fetched_setPc_counted hadvance, hmar, rfl, onlyChanges_step_of_haltedAt hs⟩

end Sys2Proof.Machine
end
